-- ==== Sys2Proof/Word.lean ====
section
/-! DEFINITION. The value types of the block (00_scope.md R7, R8, R9). Every number is unsigned (R8). -/

namespace Sys2Proof

/-- A data-in or data-out value, `DW` = 32 bits (R7). -/
abbrev Word := BitVec 32

/-- A command word, `CMDW` = 16 bits (R7). -/
abbrev CmdWord := BitVec 16

/-- `Char` of R9: a character code 0 to 255, `CW` = 8 bits. -/
abbrev CharCode := BitVec 8

/-- `Freq` of R9: one entry of the frequency table, `FW` = 32 bits. -/
abbrev Freq := BitVec 32

/-- `Sum` of R9: the frequency of a node, `SW` = 40 bits. -/
abbrev FreqSum := BitVec 40

/-- `Idx` of R9: a node index 0 to 510. Index 511 does not exist (10_state.md R52). -/
abbrev Idx := Fin 511

/-- The 9-bit node-index field of a command word, which can also spell 511 (30_encoding.md R83, R92). -/
abbrev NodeField := BitVec 9

/-- The 3-bit word select of `RCBITS` (30_encoding.md R83). -/
abbrev WordSel := BitVec 3

/-- `Path` of R9: the moves from the root, the first move first; `false` is the symbol 0 (left), `true` the
symbol 1 (right). -/
abbrev Path := List Bool

end Sys2Proof
end

