-- ==== Sys2Proof/Config.lean ====
section
/-! DEFINITION. The parameters of 00_scope.md R7. This hardware has exactly one configuration (R1), and it leaves
nothing open after reset (93_implementation_defined.md), so no value here is a free one. The value types of
Word.lean have these widths: `Sys2Proof/Laws/State.lean` proves that they agree. -/

namespace Sys2Proof.Config

/-- `NCHAR`: the number of character codes. -/
abbrev nchar : Nat := 256

/-- `CW`: the width of a character code. -/
abbrev cw : Nat := 8

/-- `FW`: the width of a frequency-table entry (D4). -/
abbrev fw : Nat := 32

/-- `SW`: the width of a node's frequency, `FW + 8` (D5). -/
abbrev sw : Nat := fw + 8

/-- `NNODE`: the number of node slots (D6). -/
abbrev nnode : Nat := 511

/-- `NW`: the width of a node index. -/
abbrev nw : Nat := 9

/-- `MAXLEN`: the greatest possible code length (42_code_gen.md R158). -/
abbrev maxlen : Nat := 255

/-- `LW`: the width of a code-length field. -/
abbrev lw : Nat := 8

/-- `CODEWORDS`: the number of 32-bit words a code is read out in (D15). -/
abbrev codewords : Nat := 8

/-- `CMDW`: the width of a command word (D7). -/
abbrev cmdw : Nat := 16

/-- `DW`: the width of data-in and data-out (D7). -/
abbrev dw : Nat := 32

/-- The first slot of an internal node: slots 0 to 255 are the leaves' (10_state.md R31). -/
abbrev firstInternal : Nat := 256

/-- The most combinations `BUILD` makes (41_tree_build.md R129). -/
abbrev maxCombine : Nat := 255

/-- The most frames `visit` is active in at one time (42_code_gen.md R156). -/
abbrev maxVisitDepth : Nat := 256

end Sys2Proof.Config
end

