-- ==== Sys2Proof/Syntax.lean ====
section
/-! DEFINITION. The fourteen commands of HTB-CMD, one constructor per row of spec/opcode_table.json
(30_encoding.md R86), and the four formats (R83). -/

namespace Sys2Proof

/-- The formats of R83, which divide the argument bits 11:0 of a command word. -/
inductive Format where
  /-- no operand; bits 11:0 must be zero -/
  | N
  /-- a character index in bits 7:0; bits 11:8 must be zero -/
  | C
  /-- a node index in bits 8:0; bits 11:9 must be zero -/
  | X
  /-- a character index in bits 7:0 and a word select in bits 10:8; bit 11 must be zero -/
  | W
  deriving DecidableEq, Repr

/-- A command with its operands, in the operand order of R94. `wfreq` alone takes the data-in value (R84). -/
inductive Instr where
  | clear
  | clrerr
  | wfreq (c : CharCode) (v : Word)
  | rfreq (c : CharCode)
  | build
  | gen
  | rstat
  | rroot
  | rnode (n : NodeField)
  | rnfl (n : NodeField)
  | rnfh (n : NodeField)
  | rclen (c : CharCode)
  | rcbits (c : CharCode) (w : WordSel)
  | rerr
  deriving DecidableEq, Repr

end Sys2Proof
end

