-- ==== Sys2Proof/WellFormed.lean ====
section
/-! DEFINITION. Which commands are well formed: those some legal command word spells (30_encoding.md R92). The
widths of the fields are in the types; the one further check is the node index, of which 511 is not legal
(20_memory.md R62; R85 gives the range 0 to 510). -/

namespace Sys2Proof

/-- The range check on a node-index field: 0 to 510 (R62). -/
def nodeFieldOk (n : NodeField) : Bool := n.toNat ≤ 510

/-- The command is one that a legal word spells. -/
def Instr.wellFormed : Instr → Bool
  | .clear => true
  | .clrerr => true
  | .wfreq _ _ => true
  | .rfreq _ => true
  | .build => true
  | .gen => true
  | .rstat => true
  | .rroot => true
  | .rnode n => nodeFieldOk n
  | .rnfl n => nodeFieldOk n
  | .rnfh n => nodeFieldOk n
  | .rclen _ => true
  | .rcbits _ _ => true
  | .rerr => true

end Sys2Proof
end

