-- ==== Sys2Proof/Decode.lean ====
section
/-! DEFINITION. Decoding of a command (30_encoding.md R83, R84, R86, R88 steps 1 to 3, R91, R92), total on all
2^16 command words and all 2^32 data-in values, refusing by name; and the encoder (R85). -/

namespace Sys2Proof

/-- Why a command word spells no command, in the order of the checks of R88. Each of the three gives the response
ILLEGAL (60_exceptions.md R201, R205). -/
inductive DecodeError where
  /-- step 1: the opcode is 0x0 or 0xF (R91) -/
  | reservedOpcode
  /-- step 2: a 1 in a must-be-zero bit of the opcode's format (R92) -/
  | mustBeZero
  /-- step 3: a Format X word with node index 511 (R92) -/
  | nodeIndex511
  deriving DecidableEq, Repr

/-- `op` = `cmd[15:12]` (R83). -/
def opField (cmd : CmdWord) : BitVec 4 := cmd.extractLsb' 12 4

/-- `arg` = `cmd[11:0]` (R83). -/
def argField (cmd : CmdWord) : BitVec 12 := cmd.extractLsb' 0 12

/-- `c` = `cmd[7:0]` of Formats C and W (R83). -/
def charField (cmd : CmdWord) : CharCode := cmd.extractLsb' 0 8

/-- `n` = `cmd[8:0]` of Format X (R83). -/
def nodeField (cmd : CmdWord) : NodeField := cmd.extractLsb' 0 9

/-- `w` = `cmd[10:8]` of Format W (R83). -/
def wordSelField (cmd : CmdWord) : WordSel := cmd.extractLsb' 8 3

/-- A Format N word: bits 11:0 must be zero (R88 step 2). -/
def decodeN (cmd : CmdWord) (i : Instr) : Except DecodeError Instr :=
  if argField cmd = 0 then .ok i else .error .mustBeZero

/-- A Format C word: bits 11:8 must be zero. -/
def decodeC (cmd : CmdWord) (mk : CharCode → Instr) : Except DecodeError Instr :=
  if cmd.extractLsb' 8 4 = 0 then .ok (mk (charField cmd)) else .error .mustBeZero

/-- A Format X word: bits 11:9 must be zero, then the index must not be 511 (R88 steps 2, 3). -/
def decodeX (cmd : CmdWord) (mk : NodeField → Instr) : Except DecodeError Instr :=
  if cmd.extractLsb' 9 3 = 0 then
    if nodeFieldOk (nodeField cmd) then .ok (mk (nodeField cmd)) else .error .nodeIndex511
  else .error .mustBeZero

/-- A Format W word: bit 11 must be zero. -/
def decodeW (cmd : CmdWord) (mk : CharCode → WordSel → Instr) : Except DecodeError Instr :=
  if cmd.extractLsb' 11 1 = 0 then .ok (mk (charField cmd) (wordSelField cmd)) else .error .mustBeZero

/-- The decoder: the opcode map of R86 with the checks of R88 in their order. `din` is an operand of `WFREQ` and is
ignored and unchecked for every other command (R84). -/
def decode (cmd : CmdWord) (din : Word) : Except DecodeError Instr :=
  match (opField cmd).toNat with
  | 0x1 => decodeN cmd .clear
  | 0x2 => decodeN cmd .clrerr
  | 0x3 => decodeC cmd (fun c => .wfreq c din)
  | 0x4 => decodeC cmd .rfreq
  | 0x5 => decodeN cmd .build
  | 0x6 => decodeN cmd .gen
  | 0x7 => decodeN cmd .rstat
  | 0x8 => decodeN cmd .rroot
  | 0x9 => decodeX cmd .rnode
  | 0xA => decodeX cmd .rnfl
  | 0xB => decodeX cmd .rnfh
  | 0xC => decodeC cmd .rclen
  | 0xD => decodeW cmd .rcbits
  | 0xE => decodeN cmd .rerr
  | _ => .error .reservedOpcode

/-- The opcode of a command (R86). -/
def Instr.op : Instr → BitVec 4
  | .clear => 0x1
  | .clrerr => 0x2
  | .wfreq _ _ => 0x3
  | .rfreq _ => 0x4
  | .build => 0x5
  | .gen => 0x6
  | .rstat => 0x7
  | .rroot => 0x8
  | .rnode _ => 0x9
  | .rnfl _ => 0xA
  | .rnfh _ => 0xB
  | .rclen _ => 0xC
  | .rcbits _ _ => 0xD
  | .rerr => 0xE

/-- The format of a command (R83, column "used by"). -/
def Instr.format : Instr → Format
  | .clear => .N
  | .clrerr => .N
  | .wfreq _ _ => .C
  | .rfreq _ => .C
  | .build => .N
  | .gen => .N
  | .rstat => .N
  | .rroot => .N
  | .rnode _ => .X
  | .rnfl _ => .X
  | .rnfh _ => .X
  | .rclen _ => .C
  | .rcbits _ _ => .W
  | .rerr => .N

/-- `N(op)` of R85. -/
def wordN (op : BitVec 4) : CmdWord := op.setWidth 16 <<< 12

/-- `C(op, c)` of R85. -/
def wordC (op : BitVec 4) (c : CharCode) : CmdWord := op.setWidth 16 <<< 12 ||| c.setWidth 16

/-- `X(op, n)` of R85. -/
def wordX (op : BitVec 4) (n : NodeField) : CmdWord := op.setWidth 16 <<< 12 ||| n.setWidth 16

/-- `W(op, c, w)` of R85. -/
def wordW (op : BitVec 4) (c : CharCode) (w : WordSel) : CmdWord :=
  op.setWidth 16 <<< 12 ||| w.setWidth 16 <<< 8 ||| c.setWidth 16

/-- The command word of a command (R85). -/
def cmdOf : Instr → CmdWord
  | .clear => wordN 0x1
  | .clrerr => wordN 0x2
  | .wfreq c _ => wordC 0x3 c
  | .rfreq c => wordC 0x4 c
  | .build => wordN 0x5
  | .gen => wordN 0x6
  | .rstat => wordN 0x7
  | .rroot => wordN 0x8
  | .rnode n => wordX 0x9 n
  | .rnfl n => wordX 0xA n
  | .rnfh n => wordX 0xB n
  | .rclen c => wordC 0xC c
  | .rcbits c w => wordW 0xD c w
  | .rerr => wordN 0xE

/-- The data-in value sent with a command: the count for `WFREQ`, 0 for every other (R94). -/
def dinOf : Instr → Word
  | .clear => 0
  | .clrerr => 0
  | .wfreq _ v => v
  | .rfreq _ => 0
  | .build => 0
  | .gen => 0
  | .rstat => 0
  | .rroot => 0
  | .rnode _ => 0
  | .rnfl _ => 0
  | .rnfh _ => 0
  | .rclen _ => 0
  | .rcbits _ _ => 0
  | .rerr => 0

/-- The encoder: the pair `(cmd, din)` that spells a command (R80, R85). -/
def encode (i : Instr) : CmdWord × Word := (cmdOf i, dinOf i)

/-- The bits above the lowest `nbits` of `w` taken as zero. -/
def lowBits (nbits w : Nat) : Nat := w % 2 ^ nbits

/-- The command word in a number that holds a whole transaction: its lowest 16 bits. -/
def tableCmd (nbits w : Nat) : CmdWord := BitVec.ofNat 16 (lowBits nbits w)

/-- The data-in value in a number that holds a whole transaction: the 32 bits above the command word. An opcode-table
row has 16 bits, so there it is 0. -/
def tableDin (nbits w : Nat) : Word := BitVec.ofNat 32 (lowBits nbits w / 2 ^ 16)

/-- The command the decoder reads from a number whose lowest 16 bits are the command word and whose next 32 bits are
the data-in value, `nbits` of them given and the rest zero. -/
def decodeTableWord (nbits w : Nat) : Option Instr :=
  match decode (tableCmd nbits w) (tableDin nbits w) with
  | .ok i => some i
  | .error _ => none

end Sys2Proof
end

