-- ==== Sys2Proof/Machine/State.lean ====
section
/-! DEFINITION. The state of the block as plain data (10_state.md R20, R43), the reasons a step can stop, and the
state right after reset (R53, 70_reset_and_hazards.md R230).

The three stores are lists of (index, value) pairs in one canonical form: indices strictly rising, each below the
store's size, and no entry equal to what an unlisted index reads as, which is the reset content of R53 (0 for `FREQ`,
`none` for `NODE` and `CODE`). `Machine/Ops.lean` holds the operations and the predicate `Memory.wf`. -/

namespace Sys2Proof.Machine

/-- `PHASE` (R24): which results are those of the present table. The value 3 is never held (U8). -/
inductive Phase where
  | load
  | tree
  | codes
  deriving DecidableEq, Repr

/-- The response codes of 30_encoding.md R82. The value 3 is never given (U7). -/
inductive Resp where
  | ok
  | illegal
  | seq
  deriving DecidableEq, Repr

/-- `Node` of R30: a leaf owns a character and its frequency, an internal node a representative character, a
combined frequency and two children. -/
inductive Node where
  | leaf (rep : CharCode) (freq : FreqSum)
  | internal (rep : CharCode) (freq : FreqSum) (left right : Idx)
  deriving DecidableEq, Repr

/-- A response, the pair `(resp, dout)` (30_encoding.md R80). -/
structure Response where
  code : Resp
  dout : Word
  deriving DecidableEq, Repr

/-- What the host can do to the block: send a command (R80) or assert reset (70_reset_and_hazards.md R230). -/
inductive Event where
  | command (cmd : CmdWord) (din : Word)
  | reset
  deriving DecidableEq, Repr

/-- The contents of `FREQ`: the entries that are not 0 (R21). -/
abbrev FreqStore := List (Nat × Freq)

/-- The contents of `NODE`: the slots that hold a node (R30). -/
abbrev NodeStore := List (Nat × Node)

/-- The contents of `CODE`: the slots that hold a path (R36). The empty path, `[]`, is a stored value. -/
abbrev CodeStore := List (Nat × Path)

/-- The complete architectural state of one HTB block: the ten items of R20. -/
structure Block where
  /-- `FREQ` (R21) -/
  freq : FreqStore
  /-- `PHASE` (R24) -/
  phase : Phase
  /-- `NLEAF`, 0 to 256 (R27) -/
  nleaf : BitVec 9
  /-- `ROOT` (R28) -/
  root : Idx
  /-- `NODE` (R30, R31) -/
  node : NodeStore
  /-- `CODE` (R36) -/
  code : CodeStore
  /-- `ERR_ILL` (R29) -/
  errIll : Bool
  /-- `ERR_SEQ` (R29) -/
  errSeq : Bool
  /-- `ECMD` (R46) -/
  ecmd : CmdWord
  /-- `ECODE` (R46); `ok`, whose value is 0, when no error is on record -/
  ecode : Resp
  deriving DecidableEq, Repr

/-- The reset column of R20 (R53). -/
def Block.reset : Block where
  freq := []
  phase := .load
  nleaf := 0
  root := 0
  node := []
  code := []
  errIll := false
  errSeq := false
  ecmd := 0
  ecode := .ok

/-- The block and the host's side of its command port. The last two fields are the model's, not the block's
(DESIGN CHOICE, log 1 and log 2). -/
structure State where
  /-- the ten items of R20 -/
  block : Block
  /-- what the host has still to send, first one first (R80, R232) -/
  pending : List Event
  /-- the responses given so far, first one first (00_scope.md R11) -/
  responses : List Response
  deriving DecidableEq, Repr

/-- The state right after reset (R53), nothing sent and nothing answered. -/
def State.reset : State where
  block := Block.reset
  pending := []
  responses := []

/-- Why a step can stop the machine. Both are raised by `GEN` alone (`visit`), in states that no run reaches: they
stand for the branch that 42_code_gen.md R151 marks "unreachable". SAFE: the machine stops where the spec gives no
effect (log 5). -/
inductive Fault where
  /-- Raised by `GEN` when `visit` comes to a slot of `NODE` that holds no node, the branch `none: unreachable` of
  R151. Safe. -/
  | visitEmptySlot
  /-- Raised by `GEN` when `visit` is active in more than the 256 frames that R156 proves to suffice. Safe. -/
  | visitTooDeep
  deriving DecidableEq, Repr

/-- Why a command has no meaning. -/
inductive Refusal where
  /-- Raised by an arm of `exec` whose command has no meaning yet. Safe. No arm does: every command is modelled. -/
  | notModelled (mnemonic : String)
  deriving DecidableEq, Repr

/-- What a step answers. -/
abbrev Result := Host.Outcome State Fault Refusal

end Sys2Proof.Machine
end

