-- ==== Sys2Proof/Machine/Ops.lean ====
section
/-! DEFINITION. The named operations over the stores and the state: reading and writing an element
(00_scope.md R10, 20_memory.md), giving a response (30_encoding.md R80, R82), the phase check (R88 step 4, R89),
raising an error (60_exceptions.md R206), and reset (70_reset_and_hazards.md R230). -/

namespace Sys2Proof.Machine

/-! ### Sparse stores -/

/-- The entry at index `i`, if one is listed. -/
def storeFind {α : Type} : List (Nat × α) → Nat → Option α
  | [], _ => none
  | (k, v) :: rest, i => if k = i then some v else storeFind rest i

/-- List `v` at index `i`, in the place the rising order gives it. -/
def storeInsert {α : Type} : List (Nat × α) → Nat → α → List (Nat × α)
  | [], i, v => [(i, v)]
  | (k, w) :: rest, i, v =>
    if k < i then (k, w) :: storeInsert rest i v
    else if k = i then (i, v) :: rest
    else (i, v) :: (k, w) :: rest

/-- Take index `i` out of the list. -/
def storeErase {α : Type} (st : List (Nat × α)) (i : Nat) : List (Nat × α) :=
  st.filter (fun e => e.1 != i)

/-- Indices strictly rising from `lo` on. -/
def risingFrom {α : Type} : Nat → List (Nat × α) → Bool
  | _, [] => true
  | lo, (k, _) :: rest => decide (lo ≤ k) && risingFrom (k + 1) rest

/-- Every index is below the store's size. -/
def indicesBelow {α : Type} (size : Nat) (st : List (Nat × α)) : Bool :=
  st.all (fun e => decide (e.1 < size))

/-- The canonical form of `FREQ`: rising indices below 256, no entry 0. -/
def freqWf (f : FreqStore) : Bool :=
  risingFrom 0 f && indicesBelow Config.nchar f && f.all (fun e => e.2 != 0)

/-- The canonical form of `NODE`: rising indices below 511. -/
def nodeWf (n : NodeStore) : Bool := risingFrom 0 n && indicesBelow Config.nnode n

/-- The canonical form of `CODE`: rising indices below 256. -/
def codeWf (c : CodeStore) : Bool := risingFrom 0 c && indicesBelow Config.nchar c

/-- The three stores of the block are in canonical form. -/
def Memory.wf (b : Block) : Bool := freqWf b.freq && nodeWf b.node && codeWf b.code

/-! ### Elements of the three stores (00_scope.md R10) -/

/-- `FREQ[c]`: an unlisted entry reads 0 (10_state.md R53). -/
def readFreq (f : FreqStore) (c : CharCode) : Freq := (storeFind f c.toNat).getD 0

/-- `FREQ[c] <- v`, all 32 bits (40_freq_table.md R111); writing 0 takes the entry out of the list. -/
def writeFreq (f : FreqStore) (c : CharCode) (v : Freq) : FreqStore :=
  if v = 0 then storeErase f c.toNat else storeInsert f c.toNat v

/-- `NODE[n]` (10_state.md R30). -/
def readNode (ns : NodeStore) (n : Idx) : Option Node := storeFind ns n.val

/-- `NODE[n] <- some v`. -/
def writeNode (ns : NodeStore) (n : Idx) (v : Node) : NodeStore := storeInsert ns n.val v

/-- `CODE[c]` (10_state.md R36). -/
def readCode (cs : CodeStore) (c : CharCode) : Option Path := storeFind cs c.toNat

/-- `CODE[c] <- some p`. -/
def writeCode (cs : CodeStore) (c : CharCode) (p : Path) : CodeStore := storeInsert cs c.toNat p

/-- The fields a node of either kind has (R30): its representative character. -/
def Node.rep : Node → CharCode
  | .leaf r _ => r
  | .internal r _ _ _ => r

/-- The fields a node of either kind has (R30): its frequency. -/
def Node.freq : Node → FreqSum
  | .leaf _ f => f
  | .internal _ f _ _ => f

/-- All character codes, 0 to 255 in rising order: the loops `for c in 0..255` of the spec. -/
def allChars : List CharCode := (List.range Config.nchar).map (BitVec.ofNat 8)

/-! ### Responses and errors -/

/-- `respond(OK, v)` (R10, R82). -/
def respondOk (v : Word) (s : State) : State :=
  { s with responses := s.responses ++ [{ code := .ok, dout := v }] }

/-- What an error records in the block (60_exceptions.md R203, R206): the sticky flag of its kind, the command word,
the code. The third case, `ok`, is no error and is never raised. -/
def recordError (code : Resp) (cmd : CmdWord) (b : Block) : Block :=
  match code with
  | .ok => b
  | .illegal => { b with errIll := true, ecmd := cmd, ecode := .illegal }
  | .seq => { b with errSeq := true, ecmd := cmd, ecode := .seq }

/-- `raise Err(code)` of R206: the record, then `respond(code, 0)`; nothing else changes. Error entry of the block. -/
def raiseErr (code : Resp) (cmd : CmdWord) (s : State) : State :=
  { s with block := recordError code cmd s.block, responses := s.responses ++ [{ code := code, dout := 0 }] }

/-- Clearing the error record (44_system.md R192), the counterpart of a return from an error: nothing was suspended,
so nothing is restored (60_exceptions.md R210). -/
def clearErrors (b : Block) : Block :=
  { b with errIll := false, errSeq := false, ecmd := 0, ecode := .ok }

/-- Reset maps any block to the state of R53 (70_reset_and_hazards.md R230). -/
def resetBlock (_ : Block) : Block := Block.reset

/-- The event `Reset`: it gives no response (R230). -/
def applyReset (s : State) : State := { s with block := resetBlock s.block }

/-- The block works on its own state alone. -/
def onBlock (f : Block → Block) (s : State) : State := { s with block := f s.block }

/-! ### The phase check -/

/-- `allowed(op, phase)` of R89. -/
def allowed : Instr → Phase → Bool
  | .clear, _ => true
  | .clrerr, _ => true
  | .wfreq _ _, _ => true
  | .rfreq _, _ => true
  | .build, _ => true
  | .gen, p => p != .load
  | .rstat, _ => true
  | .rroot, p => p != .load
  | .rnode _, p => p != .load
  | .rnfl _, p => p != .load
  | .rnfh _, p => p != .load
  | .rclen _, p => p == .codes
  | .rcbits _ _, p => p == .codes
  | .rerr, _ => true

/-- Steps 4 and 5 of R88: a command that the present phase does not allow raises SEQ, with its own word on record;
otherwise its own rule runs. -/
def whenAllowed (i : Instr) (s : State) (rule : Result) : Result :=
  if allowed i s.block.phase then rule else .next (raiseErr .seq (cmdOf i) s)

/-! ### Accepting what the host sends -/

/-- The next event, and the state with it taken from the port (R80). -/
def takeEvent (s : State) : Option (Event × State) :=
  match s.pending with
  | [] => none
  | e :: rest => some (e, { s with pending := rest })

/-- The block with nothing sent to it waits (70_reset_and_hazards.md R231; DEDUCED, log 10). -/
def waitForEvent (s : State) : State := s

/-- The response to a word that spells no command (30_encoding.md R88 steps 1 to 3). -/
def illegalCommand (cmd : CmdWord) (s : State) : State := raiseErr .illegal cmd s

/-- The host sends one more event, before all that it has still to send. -/
def sendFirst (e : Event) (s : State) : State := { s with pending := e :: s.pending }

end Sys2Proof.Machine
end

