-- ==== Sys2Proof/Machine/Operands.lean ====
section
/-! DEFINITION. What an operand of a command selects (30_encoding.md R84; 40_freq_table.md R110;
43_result_read.md R170): an index is a field of the command word, used as it stands. -/

namespace Sys2Proof.Machine

/-- The slot of `NODE` a node-index field selects: 511 selects none (20_memory.md R62, D34). -/
def slotOf (n : NodeField) : Option Idx :=
  if h : n.toNat < 511 then some ⟨n.toNat, h⟩ else none

/-- The slot of the leaf of character `c`, which is slot `c` (10_state.md R31). -/
def leafSlot (c : CharCode) : Idx := ⟨c.toNat, Nat.lt_of_lt_of_le c.isLt (by decide)⟩

/-- The node the field `n` selects, where slot 511 does not exist. -/
def nodeAt (b : Block) (n : NodeField) : Option Node :=
  match slotOf n with
  | none => none
  | some k => readNode b.node k

/-- Step 3 of 30_encoding.md R88 for a Format X command: index 511 raises ILLEGAL, with the command's own word on
record, before the phase is tested. -/
def whenIndexOk (i : Instr) (n : NodeField) (s : State) (rule : Result) : Result :=
  if nodeFieldOk n then rule else .next (raiseErr .illegal (cmdOf i) s)

end Sys2Proof.Machine
end

