-- ==== Sys2Proof/Machine/Flags.lean ====
section
/-! DEFINITION. The computed flags (10_state.md R27) and the words a host can read (R44 to R51). Every bit not named
by a rule reads 0. -/

namespace Sys2Proof.Machine

/-- One bit. -/
def bit (b : Bool) : BitVec 1 := if b then 1 else 0

/-- A field of a word: `v` with its bit 0 in bit `lo`. -/
def field {n : Nat} (v : BitVec n) (lo : Nat) : Word := v.setWidth 32 <<< lo

/-- The value of `PHASE` in bits 1:0 of `STATUS` (R24, R44). -/
def Phase.bits : Phase → BitVec 2
  | .load => 0
  | .tree => 1
  | .codes => 2

/-- The value of a response code (30_encoding.md R82). -/
def Resp.bits : Resp → BitVec 2
  | .ok => 0
  | .illegal => 1
  | .seq => 2

/-- A node index in a 9-bit field. -/
def idxBits (n : Idx) : BitVec 9 := BitVec.ofNat 9 n.val

/-- `EMPTY` of R27. -/
def emptyFlag (b : Block) : Bool := b.phase != .load && b.nleaf == 0

/-- `SINGLE` of R27. -/
def singleFlag (b : Block) : Bool := b.phase != .load && b.nleaf == 1

/-- `ROOTV` of R27. -/
def rootvFlag (b : Block) : Bool := b.phase != .load && decide (1 ≤ b.nleaf.toNat)

/-- The field `NLEAF` of `STATUS`: masked to 0 in phase LOAD (R44). -/
def nleafField (b : Block) : BitVec 9 := if b.phase = .load then 0 else b.nleaf

/-- `STATUS` (R44). -/
def statusWord (b : Block) : Word :=
  field b.phase.bits 0 ||| field (bit (emptyFlag b)) 2 ||| field (bit (singleFlag b)) 3 ||| field (bit b.errIll) 4 |||
    field (bit b.errSeq) 5 ||| field (nleafField b) 16

/-- `ROOTW` = `(ROOTV << 9) | ROOT` (R45; 43_result_read.md R171). -/
def rootWord (b : Block) : Word := field (bit (rootvFlag b)) 9 ||| field (idxBits b.root) 0

/-- `ERRW` = `(ECODE << 16) | ECMD` (R46; 44_system.md R194). -/
def errWord (b : Block) : Word := field b.ecode.bits 16 ||| field b.ecmd 0

/-- `NINFO` of a slot's contents (R47). -/
def ninfo : Option Node → Word
  | none => 0
  | some (.leaf rep _) => field 1#1 27 ||| field rep 18
  | some (.internal rep _ l r) =>
    field 1#1 27 ||| field 1#1 26 ||| field rep 18 ||| field (idxBits r) 9 ||| field (idxBits l) 0

/-- `NFL` of a slot's contents: bits 31:0 of the frequency (R48). -/
def nfl : Option Node → Word
  | none => 0
  | some v => v.freq.extractLsb' 0 32

/-- `NFH` of a slot's contents: bits 39:32 of the frequency, zero-extended (R49). -/
def nfh : Option Node → Word
  | none => 0
  | some v => (v.freq.extractLsb' 32 8).setWidth 32

/-- `CLENW` of a slot's contents (R50): `PRESENT` in bit 8, `LEN` in bits 7:0. -/
def clenw : Option Path → Word
  | none => 0
  | some p => field 1#1 8 ||| field (BitVec.ofNat 8 p.length) 0

/-- Symbol `k` of a path, 0 at or past its end (R51). -/
def symbolAt (p : Path) (k : Nat) : Bool := p.getD k false

/-- The 32 symbols of a path from position `base` on, position `base + j` in bit `j` (R51). -/
def symbolsFrom (p : Path) (base : Nat) : Word :=
  BitVec.ofFnLE (fun j : Fin 32 => symbolAt p (base + j.val))

/-- `CBITSW` of a slot's contents (R51). -/
def cbitsw (slot : Option Path) (w : WordSel) : Word :=
  match slot with
  | none => 0
  | some p => symbolsFrom p (32 * w.toNat)

end Sys2Proof.Machine
end

