-- ==== Sys2Proof/Machine/CodeGen.lean ====
section
/-! DEFINITION. The code-table generator, command `GEN` (42_code_gen.md R151). -/

namespace Sys2Proof.Machine

/-- `visit(n, p)` of R151, left child first (R152; DESIGN CHOICE, log 8), with fuel for the frames active at one time
(R156). The branch `none` is marked unreachable in R151; there, and where the fuel ends, it stops by name (log 5). -/
def visit (ns : NodeStore) : Nat → Idx → Path → CodeStore → Except Fault CodeStore
  | 0, _, _, _ => .error .visitTooDeep
  | fuel + 1, n, p, cs =>
    match readNode ns n with
    | none => .error .visitEmptySlot
    | some (.leaf rep _) => .ok (writeCode cs rep p)
    | some (.internal _ _ l r) =>
      match visit ns fuel l (p ++ [false]) cs with
      | .error e => .error e
      | .ok cs' => visit ns fuel r (p ++ [true]) cs'

/-- The code table of a tree (R151): every slot `none`, then one slot for each leaf. -/
def genCodes (ns : NodeStore) (nleaf : BitVec 9) (root : Idx) : Except Fault CodeStore :=
  if 1 ≤ nleaf.toNat then visit ns Config.maxVisitDepth root [] [] else .ok []

/-- What `GEN` writes (R151): `CODE` and `PHASE`. -/
def genBlock (cs : CodeStore) (b : Block) : Block := { b with code := cs, phase := .codes }

/-- `GEN` once the phase is checked: the code table, or the stop of log 5. -/
def finishGen (codes : Except Fault CodeStore) (s : State) : Result :=
  match codes with
  | .error e => .fault e
  | .ok cs => .next (respondOk 0 (onBlock (genBlock cs) s))

/-- `GEN` (R151). -/
def execGen (s : State) : Result :=
  whenAllowed .gen s (finishGen (genCodes s.block.node s.block.nleaf s.block.root) s)

end Sys2Proof.Machine
end

