-- ==== Sys2Proof/Machine/FreqTable.lean ====
section
/-! DEFINITION. The frequency-table commands `WFREQ` and `RFREQ` (40_freq_table.md). -/

namespace Sys2Proof.Machine

/-- What `WFREQ c` with data-in `v` writes (R111): `FREQ[c]` and `PHASE`. -/
def wfreqBlock (c : CharCode) (v : Word) (b : Block) : Block :=
  { b with freq := writeFreq b.freq c v, phase := .load }

/-- `WFREQ c` (R111). -/
def execWfreq (c : CharCode) (v : Word) (s : State) : Result :=
  whenAllowed (.wfreq c v) s (.next (respondOk 0 (onBlock (wfreqBlock c v) s)))

/-- `RFREQ c` (R112). -/
def execRfreq (c : CharCode) (s : State) : Result :=
  whenAllowed (.rfreq c) s (.next (respondOk (readFreq s.block.freq c) s))

end Sys2Proof.Machine
end

