-- ==== Sys2Proof/Machine/ResultRead.lean ====
section
/-! DEFINITION. The result read commands `RROOT`, `RNODE`, `RNFL`, `RNFH`, `RCLEN`, `RCBITS` (43_result_read.md). None
of them writes any state when it ends OK (20_memory.md R65). -/

namespace Sys2Proof.Machine

/-- `RROOT` (R171). -/
def execRroot (s : State) : Result :=
  whenAllowed .rroot s (.next (respondOk (rootWord s.block) s))

/-- `RNODE n` (R172). -/
def execRnode (n : NodeField) (s : State) : Result :=
  whenIndexOk (.rnode n) n s (whenAllowed (.rnode n) s (.next (respondOk (ninfo (nodeAt s.block n)) s)))

/-- `RNFL n` (R173). -/
def execRnfl (n : NodeField) (s : State) : Result :=
  whenIndexOk (.rnfl n) n s (whenAllowed (.rnfl n) s (.next (respondOk (nfl (nodeAt s.block n)) s)))

/-- `RNFH n` (R174). -/
def execRnfh (n : NodeField) (s : State) : Result :=
  whenIndexOk (.rnfh n) n s (whenAllowed (.rnfh n) s (.next (respondOk (nfh (nodeAt s.block n)) s)))

/-- `RCLEN c` (R175). -/
def execRclen (c : CharCode) (s : State) : Result :=
  whenAllowed (.rclen c) s (.next (respondOk (clenw (readCode s.block.code c)) s))

/-- `RCBITS c, w` (R176). -/
def execRcbits (c : CharCode) (w : WordSel) (s : State) : Result :=
  whenAllowed (.rcbits c w) s (.next (respondOk (cbitsw (readCode s.block.code c) w) s))

end Sys2Proof.Machine
end

