-- ==== Sys2Proof/Machine/SystemCommands.lean ====
section
/-! DEFINITION. The system commands `CLEAR`, `CLRERR`, `RSTAT`, `RERR` (44_system.md). -/

namespace Sys2Proof.Machine

/-- `CLEAR` (R191): exactly the reset state (10_state.md R55), then the response. -/
def execClear (s : State) : Result :=
  whenAllowed .clear s (.next (respondOk 0 (onBlock resetBlock s)))

/-- `CLRERR` (R192). -/
def execClrerr (s : State) : Result :=
  whenAllowed .clrerr s (.next (respondOk 0 (onBlock clearErrors s)))

/-- `RSTAT` (R193); reading clears nothing. -/
def execRstat (s : State) : Result :=
  whenAllowed .rstat s (.next (respondOk (statusWord s.block) s))

/-- `RERR` (R194); reading clears nothing. -/
def execRerr (s : State) : Result :=
  whenAllowed .rerr s (.next (respondOk (errWord s.block) s))

end Sys2Proof.Machine
end

