-- ==== Sys2Proof/Machine/TreeBuild.lean ====
section
/-! DEFINITION. The tree builder, command `BUILD` (41_tree_build.md R121 to R125). The working set `W` is a list of
slots, each with a copy of the node it holds, so that `rep(i)` and `freq(i)` are read from the copy; how `W` is
arranged cannot be observed (R124, 10_state.md R40; DESIGN CHOICE, log 7). -/

namespace Sys2Proof.Machine

/-- An element of the working set: a slot of `NODE` and the node in it. -/
structure Entry where
  slot : Idx
  node : Node
  deriving DecidableEq, Repr

/-- The local state of `BUILD` (10_state.md R40, R41): `W`, the node store being filled, `NEXT`. -/
structure Work where
  queue : List Entry
  node : NodeStore
  next : Nat
  deriving DecidableEq, Repr

/-- What `BUILD` computes from `FREQ` (R137). -/
structure Tree where
  node : NodeStore
  nleaf : BitVec 9
  root : Idx
  deriving DecidableEq, Repr

/-- The comparator `lt` of R122 on two nodes: frequency first, then representative character, both unsigned. -/
def Node.lt (a b : Node) : Bool :=
  decide (a.freq < b.freq) || (a.freq == b.freq && decide (a.rep < b.rep))

/-- `min_lt(W)` and `W` without it (R124); nothing when `W` is empty. -/
def takeLeast : List Entry → Option (Entry × List Entry)
  | [] => none
  | x :: xs =>
    match takeLeast xs with
    | none => some (x, [])
    | some (m, rest) => if x.node.lt m.node then some (x, m :: rest) else some (m, x :: rest)

/-- The leaf of a character with count `f` (R121 INIT). -/
def leafNode (c : CharCode) (f : Freq) : Node := .leaf c (f.setWidth 40)

/-- INIT for one character (R121): a leaf when the count is not 0. -/
def initChar (f : FreqStore) (w : Work) (c : CharCode) : Work :=
  if readFreq f c = 0 then w
  else
    { w with
      queue := { slot := leafSlot c, node := leafNode c (readFreq f c) } :: w.queue
      node := writeNode w.node (leafSlot c) (leafNode c (readFreq f c)) }

/-- INIT (R121): all slots `none`, `W` empty, `NEXT` at 256, then the leaves. -/
def initWork (f : FreqStore) : Work :=
  allChars.foldl (initChar f) { queue := [], node := [], next := Config.firstInternal }

/-- The lesser of two characters, unsigned (R126 (d)). -/
def minRep (a b : CharCode) : CharCode := if a ≤ b then a else b

/-- The node that combines `a`, taken first, and `b`, taken second (R125). The sum never overflows (R126). -/
def combineNodes (a b : Entry) : Node :=
  .internal (minRep a.node.rep b.node.rep) (a.node.freq + b.node.freq) a.slot b.slot

/-- COMBINE for the two nodes taken, with `rest` left in `W` (R121). `NEXT` is below 511 whenever two nodes are left
(R130), so the slot always exists. -/
def combinePair (a b : Entry) (rest : List Entry) (w : Work) : Option Work :=
  if h : w.next < 511 then
    some { queue := { slot := ⟨w.next, h⟩, node := combineNodes a b } :: rest
           node := writeNode w.node ⟨w.next, h⟩ (combineNodes a b)
           next := w.next + 1 }
  else none

/-- One pass of the loop of R121; nothing when fewer than two nodes are left. -/
def combineOnce (w : Work) : Option Work :=
  match takeLeast w.queue with
  | none => none
  | some (a, rest) =>
    match takeLeast rest with
    | none => none
    | some (b, rest') => combinePair a b rest' w

/-- The loop of R121, with fuel for its passes (R129: 255 suffice). -/
def combineLoop : Nat → Work → Work
  | 0, w => w
  | fuel + 1, w =>
    match combineOnce w with
    | none => w
    | some w' => combineLoop fuel w'

/-- FINISH (R121): `ROOT` is 0 when `W` is empty, else its one element. -/
def finishRoot : List Entry → Idx
  | [] => 0
  | e :: _ => e.slot

/-- `NLEAF <- |W|` after INIT (R121). -/
def leafCount (w : Work) : BitVec 9 := BitVec.ofNat 9 w.queue.length

/-- The work of `BUILD` when the loop has ended. -/
def builtWork (f : FreqStore) : Work := combineLoop Config.maxCombine (initWork f)

/-- The tree of a frequency table (R121). -/
def buildTree (f : FreqStore) : Tree where
  node := (builtWork f).node
  nleaf := leafCount (initWork f)
  root := finishRoot (builtWork f).queue

/-- What `BUILD` writes (R121): `NODE`, `NLEAF`, `ROOT`, `PHASE`. -/
def buildBlock (b : Block) : Block :=
  { b with
    node := (buildTree b.freq).node
    nleaf := (buildTree b.freq).nleaf
    root := (buildTree b.freq).root
    phase := .tree }

/-- `BUILD` (R121). -/
def execBuild (s : State) : Result :=
  whenAllowed .build s (.next (respondOk 0 (onBlock buildBlock s)))

end Sys2Proof.Machine
end

