-- ==== Sys2Proof/Machine/Dispatch.lean ====
section
/-! DEFINITION. The meaning of each command, one arm per constructor (30_encoding.md R86, R88). -/

namespace Sys2Proof.Machine

def exec (i : Instr) (s : State) : Host.Outcome State Fault Refusal :=
  match i with
  | .clear => Sys2Proof.Machine.execClear s
  | .clrerr => Sys2Proof.Machine.execClrerr s
  | .wfreq c v => Sys2Proof.Machine.execWfreq c v s
  | .rfreq c => Sys2Proof.Machine.execRfreq c s
  | .build => Sys2Proof.Machine.execBuild s
  | .gen => Sys2Proof.Machine.execGen s
  | .rstat => Sys2Proof.Machine.execRstat s
  | .rroot => Sys2Proof.Machine.execRroot s
  | .rnode n => Sys2Proof.Machine.execRnode n s
  | .rnfl n => Sys2Proof.Machine.execRnfl n s
  | .rnfh n => Sys2Proof.Machine.execRnfh n s
  | .rclen c => Sys2Proof.Machine.execRclen c s
  | .rcbits c w => Sys2Proof.Machine.execRcbits c w s
  | .rerr => Sys2Proof.Machine.execRerr s

end Sys2Proof.Machine
end

