-- ==== Sys2Proof/Machine/Step.lean ====
section
/-! DEFINITION. One step: the block accepts the next event the host sends and carries it out whole
(30_encoding.md R80, R88; 20_memory.md R66; 70_reset_and_hazards.md R230). -/

namespace Sys2Proof.Machine

/-- Accept a command: run the command its word spells, or answer ILLEGAL (30_encoding.md R88). -/
def stepCommand (cmd : CmdWord) (din : Word) (s : State) : Host.Outcome State Fault Refusal :=
  match decode cmd din with
  | .ok i => exec i s
  | .error _ => .next (illegalCommand cmd s)

/-- One step of the machine. With nothing sent the block waits (70_reset_and_hazards.md R231, log 10). -/
def step (s : State) : Host.Outcome State Fault Refusal :=
  match takeEvent s with
  | none => .next (waitForEvent s)
  | some (.reset, s') => .next (applyReset s')
  | some (.command cmd din, s') => stepCommand cmd din s'

/-- `s` with one more command to be accepted, before all others: the one whose bits are the number `w`, command word
in bits 15:0 and data-in value in bits 47:16, the bits from `nbits` on taken as zero (log 11). -/
def State.withFetchWord (s : State) (nbits w : Nat) : State :=
  sendFirst (.command (tableCmd nbits w) (tableDin nbits w)) s

end Sys2Proof.Machine
end

