-- ==== Sys2Proof/Machine/Assembler.lean ====
section
/-! DEFINITION. The text form of a command list and the pseudo-commands (30_encoding.md R94, R95). This is the host's
notation for what it sends and how it reads what comes back; the block has no part in it (D24). Points of the text
that R94 leaves open are in log 9 and log 13. -/

namespace Sys2Proof.Machine

/-! ### Lines and their expansion (R95) -/

/-- One line of a command list: a command, the directive `.word x, v`, or a pseudo-command. -/
inductive AsmLine where
  | command (i : Instr)
  | raw (x : CmdWord) (v : Word)
  | ldtab (entries : List (CharCode × Word))
  | mkcodes
  | rnfreq (n : NodeField)
  | rcode (c : CharCode)
  deriving DecidableEq, Repr

/-- The commands `WFREQ c1, v1; ...; WFREQ ck, vk`, in the order written. -/
def writeEntries (entries : List (CharCode × Word)) : List Instr :=
  entries.map (fun e => .wfreq e.1 e.2)

/-- The eight word selects, in rising order. -/
def allWordSels : List WordSel := (List.range Config.codewords).map (BitVec.ofNat 3)

/-- The commands a line stands for (R95); none for `.word`, which emits a raw pair. -/
def lineCommands : AsmLine → List Instr
  | .command i => [i]
  | .raw _ _ => []
  | .ldtab entries => .clear :: writeEntries entries
  | .mkcodes => [.build, .gen]
  | .rnfreq n => [.rnfl n, .rnfh n]
  | .rcode c => .rclen c :: allWordSels.map (fun w => .rcbits c w)

/-- The pairs `(cmd, din)` a line emits (R94, R95). -/
def emitLine (l : AsmLine) : List (CmdWord × Word) :=
  match l with
  | .raw x v => [(x, v)]
  | .command i => [encode i]
  | .ldtab entries => (lineCommands (.ldtab entries)).map encode
  | .mkcodes => (lineCommands .mkcodes).map encode
  | .rnfreq n => (lineCommands (.rnfreq n)).map encode
  | .rcode c => (lineCommands (.rcode c)).map encode

/-- The events of the host that send the emitted pairs. -/
def sendLine (l : AsmLine) : List Event := (emitLine l).map (fun p => .command p.1 p.2)

/-- The value the host forms from the two answers to `RNFREQ n` (R95): `(dout_2 << 32) | dout_1`, 40 bits. -/
def rnfreqValue (dout1 dout2 : Word) : FreqSum := (dout2.setWidth 40 <<< 32) ||| dout1.setWidth 40

/-- The value the host forms from the nine answers to `RCODE c` (R95): absent, or the path whose symbol `i` is bit
`i mod 32` of the answer to `RCBITS c, floor(i / 32)`. -/
def rcodeValue (dout1 : Word) (words : List Word) : Option Path :=
  if dout1.getLsbD 8 then
    some ((List.range (dout1.extractLsb' 0 8).toNat).map (fun i => (words.getD (i / 32) 0).getLsbD (i % 32)))
  else none

/-! ### The text of a line (R94) -/

/-- Why the assembler refuses a line. -/
inductive AsmError where
  /-- a piece of text that is no number, name or separator -/
  | badToken
  /-- not a mnemonic followed by its operands -/
  | badSyntax
  /-- an operand out of the range of its field, or node index 511 -/
  | outOfRange
  deriving DecidableEq, Repr

/-- The pieces of a line. -/
inductive Token where
  | num (n : Nat)
  | name (w : List Char)
  | comma
  | colon
  deriving DecidableEq, Repr

/-- The value of a digit in base 10 or 16. -/
def digitValue (base : Nat) (c : Char) : Option Nat :=
  let k := c.toNat
  let v := if 48 ≤ k ∧ k ≤ 57 then k - 48
    else if 97 ≤ k ∧ k ≤ 102 then k - 87
    else if 65 ≤ k ∧ k ≤ 70 then k - 55
    else base
  if v < base then some v else none

/-- The value of a run of digits, most significant first, after the value `acc` of the digits before it. -/
def digitsValue (base : Nat) : Nat → List Char → Option Nat
  | acc, [] => some acc
  | acc, c :: rest =>
    match digitValue base c with
    | none => none
    | some d => digitsValue base (acc * base + d) rest

/-- A number: decimal, or hexadecimal with `0x`. -/
def numberValue : List Char → Option Nat
  | [] => none
  | ['0', 'x'] => none
  | '0' :: 'x' :: rest => digitsValue 16 0 rest
  | c :: rest => digitsValue 10 0 (c :: rest)

/-- A run of text: a number when it begins with a digit, else a name. -/
def classify (w : List Char) : Option Token :=
  match w with
  | [] => none
  | c :: _ =>
    match digitValue 10 c with
    | some _ => (numberValue w).map .num
    | none => some (.name w)

/-- Put the run of text read so far, held in reverse, before the pieces that follow. -/
def flush (run : List Char) (rest : Option (List Token)) : Option (List Token) :=
  match run, rest with
  | _, none => none
  | [], some ts => some ts
  | c :: cs, some ts => (classify (c :: cs).reverse).map (fun t => t :: ts)

/-- A printable character (log 9). -/
def printable (c : Char) : Bool := decide (32 ≤ c.toNat) && decide (c.toNat ≤ 126)

/-- Cut a line into pieces; `run` is the text read so far since the last separator, in reverse. Text from `;` on is a
comment. A printable character in single quotes is a number. -/
def lex : List Char → List Char → Option (List Token)
  | run, [] => flush run (some [])
  | run, '\'' :: c :: '\'' :: rest =>
    if printable c && run.isEmpty then (lex [] rest).map (fun ts => .num c.toNat :: ts) else none
  | run, c :: rest =>
    if c = ';' then flush run (some [])
    else if c = ',' then flush run ((lex [] rest).map (fun ts => .comma :: ts))
    else if c = ':' then flush run ((lex [] rest).map (fun ts => .colon :: ts))
    else if c = ' ' || c = '\t' || c = '\r' then flush run (lex [] rest)
    else lex (c :: run) rest

/-- A character-index operand, 0 to 255. -/
def charOperand (n : Nat) : Except AsmError CharCode :=
  if n < 256 then .ok (BitVec.ofNat 8 n) else .error .outOfRange

/-- A node-index operand, 0 to 510. -/
def nodeOperand (n : Nat) : Except AsmError NodeField :=
  if n < 511 then .ok (BitVec.ofNat 9 n) else .error .outOfRange

/-- A word-select operand, 0 to 7. -/
def selOperand (n : Nat) : Except AsmError WordSel :=
  if n < 8 then .ok (BitVec.ofNat 3 n) else .error .outOfRange

/-- A data-in operand, 0 to 2^32 - 1. -/
def dinOperand (n : Nat) : Except AsmError Word :=
  if n < 2 ^ 32 then .ok (BitVec.ofNat 32 n) else .error .outOfRange

/-- A raw command word, 0 to 2^16 - 1. -/
def rawOperand (n : Nat) : Except AsmError CmdWord :=
  if n < 2 ^ 16 then .ok (BitVec.ofNat 16 n) else .error .outOfRange

/-- The entries `c1:v1, c2:v2, ..., ck:vk` of `LDTAB`, at least one. -/
def parseEntries : List Token → Except AsmError (List (CharCode × Word))
  | [.num c, .colon, .num v] => do return [(← charOperand c, ← dinOperand v)]
  | .num c :: .colon :: .num v :: .comma :: rest => do
    let c ← charOperand c
    let v ← dinOperand v
    let es ← parseEntries rest
    return (c, v) :: es
  | _ => .error .badSyntax

/-- A line without operands. -/
def parseN (l : AsmLine) : List Token → Except AsmError AsmLine
  | [] => .ok l
  | _ => .error .badSyntax

/-- A line with one operand. -/
def parseOne {α : Type} (read : Nat → Except AsmError α) (mk : α → AsmLine) : List Token → Except AsmError AsmLine
  | [.num a] => do return mk (← read a)
  | _ => .error .badSyntax

/-- A line with two operands. -/
def parseTwo {α β : Type} (readA : Nat → Except AsmError α) (readB : Nat → Except AsmError β) (mk : α → β → AsmLine) :
    List Token → Except AsmError AsmLine
  | [.num a, .comma, .num b] => do return mk (← readA a) (← readB b)
  | _ => .error .badSyntax

/-- The directive `.word x, v` (R94). With one operand, `.word x` sends `din = 0`, as program P4 of 95_test_vectors.md
writes it, where R94 gives the form with two only (DEDUCED, log 13). -/
def parseWord : List Token → Except AsmError AsmLine
  | [.num x] => do return .raw (← rawOperand x) 0
  | ops => parseTwo rawOperand dinOperand .raw ops

/-- The line a mnemonic and its operands spell, operands in the order of 30_encoding.md R86; `.word` also in the
one-operand form of P4 (DEDUCED, log 13). -/
def parseOperands (mnemonic : String) (ops : List Token) : Except AsmError AsmLine :=
  match mnemonic with
  | "CLEAR" => parseN (.command .clear) ops
  | "CLRERR" => parseN (.command .clrerr) ops
  | "WFREQ" => parseTwo charOperand dinOperand (fun c v => .command (.wfreq c v)) ops
  | "RFREQ" => parseOne charOperand (fun c => .command (.rfreq c)) ops
  | "BUILD" => parseN (.command .build) ops
  | "GEN" => parseN (.command .gen) ops
  | "RSTAT" => parseN (.command .rstat) ops
  | "RROOT" => parseN (.command .rroot) ops
  | "RNODE" => parseOne nodeOperand (fun n => .command (.rnode n)) ops
  | "RNFL" => parseOne nodeOperand (fun n => .command (.rnfl n)) ops
  | "RNFH" => parseOne nodeOperand (fun n => .command (.rnfh n)) ops
  | "RCLEN" => parseOne charOperand (fun c => .command (.rclen c)) ops
  | "RCBITS" => parseTwo charOperand selOperand (fun c w => .command (.rcbits c w)) ops
  | "RERR" => parseN (.command .rerr) ops
  | ".word" => parseWord ops
  | "LDTAB" => do return .ldtab (← parseEntries ops)
  | "MKCODES" => parseN .mkcodes ops
  | "RNFREQ" => parseOne nodeOperand .rnfreq ops
  | "RCODE" => parseOne charOperand .rcode ops
  | _ => .error .badSyntax

/-- One line of text: nothing for a blank line, else the line it spells (R94). -/
def parseLine (text : List Char) : Except AsmError (Option AsmLine) :=
  match lex [] text with
  | none => .error .badToken
  | some [] => .ok none
  | some (.name w :: ops) =>
    match parseOperands (String.ofList w) ops with
    | .ok l => .ok (some l)
    | .error e => .error e
  | some _ => .error .badSyntax

/-- Cut a text into lines; `line` is the part of the present line read so far, in reverse. -/
def splitLines : List Char → List Char → List (List Char)
  | line, [] => [line.reverse]
  | line, c :: rest => if c = '\n' then line.reverse :: splitLines [] rest else splitLines (c :: line) rest

/-- The pairs that lines of text emit, in their order; the first line refused decides. -/
def assembleLines : List (List Char) → Except AsmError (List (CmdWord × Word))
  | [] => .ok []
  | t :: rest => do
    let l ← parseLine t
    let ps ← assembleLines rest
    return (match l with | none => [] | some l => emitLine l) ++ ps

/-- The command list that a text spells (R94). -/
def assemble (text : List Char) : Except AsmError (List (CmdWord × Word)) :=
  assembleLines (splitLines [] text)

end Sys2Proof.Machine
end

