-- ==== Sys2Proof/Safety.lean ====
section
/-! DEFINITION. The terms in which claims about the block are stated: the invariant of its states, what it is for a
state to be indistinguishable from another, runs, and what the rules say of a tree and a code table. -/

namespace Sys2Proof.Machine

/-! ### Runs (00_scope.md R11) -/

/-- `k` steps, ending at the first stop. -/
def runSteps : Nat → State → Result
  | 0, s => .next s
  | k + 1, s =>
    match step s with
    | .next t => runSteps k t
    | .fault e => .fault e
    | .refused r => .refused r

/-- Both runs go on, to states that `R` relates, or both stop for one and the same reason. -/
def sameOutcome (R : State → State → Prop) : Result → Result → Prop
  | .next t, .next t' => R t t'
  | .fault e, .fault e' => e = e'
  | .refused r, .refused r' => r = r'
  | _, _ => False

/-! ### The invariant of the states a run can reach -/

/-- `NODE`, `NLEAF`, `ROOT` are those of the tree of the present `FREQ` in the phases that say so (10_state.md R24;
20_memory.md R70). -/
def treeCurrent (b : Block) : Prop :=
  b.phase ≠ .load →
    b.node = (buildTree b.freq).node ∧ b.nleaf = (buildTree b.freq).nleaf ∧ b.root = (buildTree b.freq).root

/-- `CODE` is the code table of the tree in `NODE` in phase CODES (10_state.md R24; 20_memory.md R71). -/
def codesCurrent (b : Block) : Prop :=
  b.phase = .codes → genCodes b.node b.nleaf b.root = .ok b.code

/-- The error record (10_state.md R29, R46): `ECODE` is 0 exactly when no flag is set, and then `ECMD` is 0; the flag
of the kind on record is set. -/
def errorRecordOk (b : Block) : Prop :=
  (b.ecode = .ok ↔ b.errIll = false ∧ b.errSeq = false) ∧ (b.ecode = .ok → b.ecmd = 0) ∧
    (b.ecode = .illegal → b.errIll = true) ∧ (b.ecode = .seq → b.errSeq = true)

/-- The invariant: what holds of every state that a run from reset can reach. -/
structure StateInv (s : State) : Prop where
  memory : Memory.wf s.block = true
  leaves : s.block.nleaf.toNat ≤ 256
  tree : treeCurrent s.block
  codes : codesCurrent s.block
  errors : errorRecordOk s.block

/-! ### What no command sequence can tell apart (10_state.md R56) -/

/-- The two blocks differ at most in parts that their phase makes unreadable: `NODE`, `NLEAF`, `ROOT` in phase LOAD,
`CODE` in phases LOAD and TREE. -/
def readableEq (b b' : Block) : Prop :=
  b.freq = b'.freq ∧ b.phase = b'.phase ∧ b.errIll = b'.errIll ∧ b.errSeq = b'.errSeq ∧ b.ecmd = b'.ecmd ∧
    b.ecode = b'.ecode ∧ (b.phase ≠ .load → b.node = b'.node ∧ b.nleaf = b'.nleaf ∧ b.root = b'.root) ∧
    (b.phase = .codes → b.code = b'.code)

/-- The same for states: the host has the same to send and has been given the same. -/
def indistinguishable (s s' : State) : Prop :=
  readableEq s.block s'.block ∧ s.pending = s'.pending ∧ s.responses = s'.responses

/-- The two blocks differ at most in the error record. -/
def sameButErrors (b b' : Block) : Prop :=
  b.freq = b'.freq ∧ b.phase = b'.phase ∧ b.nleaf = b'.nleaf ∧ b.root = b'.root ∧ b.node = b'.node ∧ b.code = b'.code

/-! ### Commands by what they may do -/

/-- The phase a command leaves: the table of 10_state.md R25. -/
def phaseAfter : Instr → Phase → Phase
  | .wfreq _ _, _ => .load
  | .build, _ => .tree
  | .gen, .load => .load
  | .gen, .tree => .codes
  | .gen, .codes => .codes
  | .clear, _ => .load
  | .rfreq _, p => p
  | .rstat, p => p
  | .rerr, p => p
  | .clrerr, p => p
  | .rroot, p => p
  | .rnode _, p => p
  | .rnfl _, p => p
  | .rnfh _, p => p
  | .rclen _, p => p
  | .rcbits _ _, p => p

/-- The phases in which a command answers SEQ: the table of 60_exceptions.md R202. -/
def refusedIn : Instr → Phase → Prop
  | .gen, p => p = .load
  | .rroot, p => p = .load
  | .rnode _, p => p = .load
  | .rnfl _, p => p = .load
  | .rnfh _, p => p = .load
  | .rclen _, p => p ≠ .codes
  | .rcbits _ _, p => p ≠ .codes
  | .clear, _ => False
  | .clrerr, _ => False
  | .wfreq _ _, _ => False
  | .rfreq _, _ => False
  | .build, _ => False
  | .rstat, _ => False
  | .rerr, _ => False

/-- The read commands (20_memory.md R63, R65). -/
def isRead : Instr → Prop
  | .rfreq _ => True
  | .rstat => True
  | .rroot => True
  | .rnode _ => True
  | .rnfl _ => True
  | .rnfh _ => True
  | .rclen _ => True
  | .rcbits _ _ => True
  | .rerr => True
  | .clear => False
  | .clrerr => False
  | .wfreq _ _ => False
  | .build => False
  | .gen => False

/-! ### What the rules say of a tree and of a code table -/

/-- The number of characters whose count is not 0 (10_state.md R27). -/
def presentCount (f : FreqStore) : Nat := (allChars.filter (fun c => readFreq f c != 0)).length

/-- The sum of all 256 entries, as a number (41_tree_build.md R134). -/
def totalCount (f : FreqStore) : Nat := (allChars.map (fun c => (readFreq f c).toNat)).sum

/-- The node in slot `m` is internal and slot `n` is its left or its right child. -/
def childOf (ns : NodeStore) (m n : Idx) : Prop :=
  ∃ rep f l r, readNode ns m = some (.internal rep f l r) ∧ (l = n ∨ r = n)

/-- The characters of the leaves below slot `n`, left to right: `L(n)` of 41_tree_build.md section 5, with fuel for
the depth. -/
def leavesBelow (ns : NodeStore) : Nat → Idx → List CharCode
  | 0, _ => []
  | fuel + 1, n =>
    match readNode ns n with
    | none => []
    | some (.leaf rep _) => [rep]
    | some (.internal _ _ l r) => leavesBelow ns fuel l ++ leavesBelow ns fuel r

/-- Following a path down from slot `n`: left on the symbol 0, right on 1, through internal nodes only
(42_code_gen.md R162). -/
def walk (ns : NodeStore) : Path → Idx → Option Idx
  | [], n => some n
  | b :: p, n =>
    match readNode ns n with
    | none => none
    | some (.leaf _ _) => none
    | some (.internal _ _ l r) => walk ns p (if b then r else l)

/-- The value a list of entries written in order leaves for `c`: the last one written, 0 where there is none
(30_encoding.md R95). -/
def lastWritten (entries : List (CharCode × Word)) (c : CharCode) : Freq :=
  entries.foldl (fun v e => if e.1 = c then e.2 else v) 0

end Sys2Proof.Machine
end

