-- ==== Sys2Proof/Certificates/Slice0/Obligations.lean ====
section
/-! DEFINITION. The statements about the model. Each docstring names the rule of spec/ it formalises. `StateInv` is the
invariant of reachable states (`Sys2Proof/Safety.lean`); where it is a premise, it rules out states that no run
reaches, and `StepKeepsTheInvariant` and `ResetStateMeetsTheInvariant` say that runs stay within it. -/

open Sys2Proof Sys2Proof.Machine

/-! ### Reset and the system commands -/

/-- 10_state.md R53: every item of R20 at its reset value, and what `STATUS` and `ERRW` read then. -/
def Obligations.ResetStateHoldsTheResetValues : Prop :=
  (∀ c, readFreq State.reset.block.freq c = 0) ∧ State.reset.block.phase = .load ∧ State.reset.block.nleaf = 0 ∧
    State.reset.block.root = 0 ∧ (∀ n, readNode State.reset.block.node n = none) ∧
    (∀ c, readCode State.reset.block.code c = none) ∧ State.reset.block.errIll = false ∧
    State.reset.block.errSeq = false ∧ State.reset.block.ecmd = 0 ∧ State.reset.block.ecode = .ok ∧
    statusWord State.reset.block = 0x00000000 ∧ errWord State.reset.block = 0x00000000

/-- 70_reset_and_hazards.md R230, at the transaction level: reset maps any state to the reset state, gives no
response, and does not depend on the state before it. -/
def Obligations.ResetEventMapsAnyBlockToTheResetBlock : Prop :=
  ∀ (s : State) (es : List Event), s.pending = .reset :: es →
    step s = .next { block := State.reset.block, pending := es, responses := s.responses }

/-- 10_state.md R55 (and 44_system.md R191): `CLEAR` in any state completes and gives the reset block, which is the block
the reset event gives in any state. -/
def Obligations.ClearLeavesExactlyTheResetBlock : Prop :=
  (∀ s : State, exec .clear s = .next { block := State.reset.block, pending := s.pending
                                        responses := s.responses ++ [{ code := .ok, dout := 0 }] }) ∧
  (∀ (s s' t t' : State) (es : List Event), exec .clear s = .next t → s'.pending = .reset :: es →
    step s' = .next t' → t.block = t'.block)

/-- 44_system.md R192: `CLRERR` writes the four items of the error record and nothing else. -/
def Obligations.ClrerrClearsTheErrorRecordOnly : Prop :=
  ∀ s : State, exec .clrerr s =
    .next { s with block := { s.block with errIll := false, errSeq := false, ecmd := 0, ecode := .ok }
                   responses := s.responses ++ [{ code := .ok, dout := 0 }] }

/-- 10_state.md R44 and 44_system.md R193: `RSTAT` answers `STATUS`, field by field, in every state, and changes
nothing; the flags by the formulas of 10_state.md R27. -/
def Obligations.RstatAnswersTheFieldsOfStatus : Prop :=
  ∀ s : State, ∃ w : Word,
    exec .rstat s = .next { s with responses := s.responses ++ [{ code := .ok, dout := w }] } ∧
    w.extractLsb' 0 2 = (match s.block.phase with | .load => 0#2 | .tree => 1#2 | .codes => 2#2) ∧
    w.getLsbD 2 = decide (s.block.phase ≠ .load ∧ s.block.nleaf.toNat = 0) ∧
    w.getLsbD 3 = decide (s.block.phase ≠ .load ∧ s.block.nleaf.toNat = 1) ∧
    w.getLsbD 4 = s.block.errIll ∧ w.getLsbD 5 = s.block.errSeq ∧ w.extractLsb' 6 10 = 0 ∧
    w.extractLsb' 16 9 = (if s.block.phase = .load then 0 else s.block.nleaf) ∧ w.extractLsb' 25 7 = 0

/-- 10_state.md R46 and 44_system.md R194: `RERR` answers `ERRW`, field by field, in every state, and changes nothing;
in the states a run can reach it is 0 exactly when no error is on record. -/
def Obligations.RerrAnswersTheFieldsOfErrw : Prop :=
  ∀ s : State, ∃ w : Word,
    exec .rerr s = .next { s with responses := s.responses ++ [{ code := .ok, dout := w }] } ∧
    w.extractLsb' 0 16 = s.block.ecmd ∧
    w.extractLsb' 16 2 = (match s.block.ecode with | .ok => 0#2 | .illegal => 1#2 | .seq => 2#2) ∧
    w.extractLsb' 18 14 = 0 ∧ (StateInv s → (w = 0 ↔ s.block.errIll = false ∧ s.block.errSeq = false))

/-! ### The frequency table -/

/-- 40_freq_table.md R111: `WFREQ c` in any state writes the whole data-in value to `FREQ[c]`, sets `PHASE` to LOAD, and
changes no other entry and no other item. -/
def Obligations.WfreqWritesOneEntryAndInvalidates : Prop :=
  ∀ (c : CharCode) (v : Word) (s : State), ∃ f : FreqStore,
    exec (.wfreq c v) s = .next { s with block := { s.block with freq := f, phase := .load }
                                         responses := s.responses ++ [{ code := .ok, dout := 0 }] } ∧
    readFreq f c = v ∧ ∀ d, d ≠ c → readFreq f d = readFreq s.block.freq d

/-- 40_freq_table.md R112: `RFREQ c` in any state answers `FREQ[c]` and changes nothing. -/
def Obligations.RfreqAnswersTheEntry : Prop :=
  ∀ (c : CharCode) (s : State), exec (.rfreq c) s =
    .next { s with responses := s.responses ++ [{ code := .ok, dout := readFreq s.block.freq c }] }

/-- 10_state.md R22: which commands change `FREQ`, and how: `WFREQ c` its one entry, `CLEAR` (and reset) all to 0, no
other command anything; and `RFREQ c` reads one entry. -/
def Obligations.FrequencyTableChangesOnlyByItsWriters : Prop :=
  (∀ (i : Instr) (s t : State), exec i s = .next t → ∀ d : CharCode,
    readFreq t.block.freq d =
      (match i with
       | .wfreq c v => if d = c then v else readFreq s.block.freq d
       | .clear => 0
       | _ => readFreq s.block.freq d)) ∧
  (∀ (s t : State) (es : List Event), s.pending = .reset :: es → step s = .next t →
    ∀ d, readFreq t.block.freq d = 0) ∧
  (∀ (c : CharCode) (s t : State), exec (.rfreq c) s = .next t →
    t.responses = s.responses ++ [{ code := .ok, dout := readFreq s.block.freq c }])

/-- 40_freq_table.md R113, 30_encoding.md R95: the commands of `LDTAB`, run from any state, complete and leave every entry
of `FREQ` at the last value the list gives it, 0 where it gives none; so a list that gives every non-zero entry of a
table `T`, in whatever order, and no other value, leaves `FREQ` at `T`. -/
def Obligations.LdtabLoadsTheTable : Prop :=
  ∀ (entries : List (CharCode × Word)) (s : State) (es : List Event),
    s.pending = sendLine (.ldtab entries) ++ es →
    ∃ t, runSteps (entries.length + 1) s = .next t ∧ t.pending = es ∧ t.block.phase = .load ∧
      (∀ c, readFreq t.block.freq c = lastWritten entries c) ∧
      (∀ T : CharCode → Freq, (∀ e ∈ entries, e.2 = T e.1) → (∀ c, T c ≠ 0 → ∃ e ∈ entries, e.1 = c) →
        ∀ c, readFreq t.block.freq c = T c)

/-! ### Which command changes what -/

/-- 10_state.md R32, R38 and 41_tree_build.md, 42_code_gen.md: `NODE`, `NLEAF` and `ROOT` change only by `BUILD` and
`CLEAR`, `CODE` only by `GEN` and `CLEAR`. -/
def Obligations.TreeAndCodesChangeOnlyByTheirWriters : Prop :=
  ∀ (i : Instr) (s t : State), exec i s = .next t →
    (i ≠ .build → i ≠ .clear →
      t.block.node = s.block.node ∧ t.block.nleaf = s.block.nleaf ∧ t.block.root = s.block.root) ∧
    (i ≠ .gen → i ≠ .clear → t.block.code = s.block.code)

/-- 10_state.md R25: how each command advances `PHASE`: the table of the rule (`phaseAfter`) for a command, no change
for a word that spells none, LOAD for reset. -/
def Obligations.PhaseFollowsTheTableOfTheRule : Prop :=
  (∀ (i : Instr) (s t : State), exec i s = .next t → t.block.phase = phaseAfter i s.block.phase) ∧
  (∀ (s t : State) (cmd : CmdWord) (din : Word) (es : List Event) (e : DecodeError),
    s.pending = .command cmd din :: es → decode cmd din = .error e → step s = .next t →
    t.block.phase = s.block.phase) ∧
  (∀ (s t : State) (es : List Event), s.pending = .reset :: es → step s = .next t → t.block.phase = .load)

/-- 20_memory.md R65: a read command that its phase allows completes and changes no state but the responses given. -/
def Obligations.ReadsThatEndOkChangeNothing : Prop :=
  ∀ (i : Instr) (s : State), isRead i → i.wellFormed = true → allowed i s.block.phase = true →
    ∃ w : Word, exec i s = .next { s with responses := s.responses ++ [{ code := .ok, dout := w }] }

/-! ### Errors -/

/-- 60_exceptions.md R206, for both codes: what raising an error records, and that nothing else changes. The word on
record is the word that was sent. -/
def Obligations.ErrorsRecordTheCommandAndChangeNothingElse : Prop :=
  ∀ (s : State) (cmd : CmdWord) (din : Word) (es : List Event), s.pending = .command cmd din :: es →
    (∀ e, decode cmd din = .error e → step s =
      .next { block := { s.block with errIll := true, ecmd := cmd, ecode := .illegal }, pending := es
              responses := s.responses ++ [{ code := .illegal, dout := 0 }] }) ∧
    (∀ i, decode cmd din = .ok i → allowed i s.block.phase = false → step s =
      .next { block := { s.block with errSeq := true, ecmd := cmd, ecode := .seq }, pending := es
              responses := s.responses ++ [{ code := .seq, dout := 0 }] })

/-- 60_exceptions.md R202 and 30_encoding.md R89: a legal command answers SEQ, with the record of R206, in the phases the
table of R202 lists for it, and in every other phase it answers OK where it completes; and `allowed` is that table. -/
def Obligations.SeqIsAnsweredExactlyOutOfPhase : Prop :=
  ∀ (i : Instr) (s : State), i.wellFormed = true →
    (allowed i s.block.phase = false ↔ refusedIn i s.block.phase) ∧
    (refusedIn i s.block.phase → exec i s =
      .next { s with block := { s.block with errSeq := true, ecmd := cmdOf i, ecode := .seq }
                     responses := s.responses ++ [{ code := .seq, dout := 0 }] }) ∧
    (¬ refusedIn i s.block.phase → ∀ t, exec i s = .next t →
      ∃ w, t.responses = s.responses ++ [{ code := .ok, dout := w }])

/-- 30_encoding.md R92, 20_memory.md R62: node index 511 answers ILLEGAL in every phase, whichever of the three Format X
commands names it, and changes the error record alone. -/
def Obligations.NodeIndex511IsIllegal : Prop :=
  ∀ (s : State) (i : Instr), (i = .rnode 511 ∨ i = .rnfl 511 ∨ i = .rnfh 511) → exec i s =
    .next { s with block := { s.block with errIll := true, ecmd := cmdOf i, ecode := .illegal }
                   responses := s.responses ++ [{ code := .illegal, dout := 0 }] }

/-- 10_state.md R29: a command that answers ILLEGAL sets `ERR_ILL`, one that answers SEQ sets `ERR_SEQ`, none that
answers OK sets either, and a set flag stays set until `CLRERR`, `CLEAR` or reset, each of which clears both. -/
def Obligations.ErrorFlagsAreSticky : Prop :=
  (∀ (s t : State) (cmd : CmdWord) (din : Word) (es : List Event),
    s.pending = .command cmd din :: es → step s = .next t →
    ∃ r : Response, t.responses = s.responses ++ [r] ∧
      (r.code = .illegal → t.block.errIll = true) ∧ (r.code = .seq → t.block.errSeq = true) ∧
      (r.code = .ok → (t.block.errIll = true → s.block.errIll = true) ∧
        (t.block.errSeq = true → s.block.errSeq = true)) ∧
      (decode cmd din ≠ .ok .clear → decode cmd din ≠ .ok .clrerr →
        (s.block.errIll = true → t.block.errIll = true) ∧ (s.block.errSeq = true → t.block.errSeq = true))) ∧
  (∀ s t : State, exec .clear s = .next t ∨ exec .clrerr s = .next t →
    t.block.errIll = false ∧ t.block.errSeq = false) ∧
  (∀ (s t : State) (es : List Event), s.pending = .reset :: es → step s = .next t →
    t.block.errIll = false ∧ t.block.errSeq = false)

/-- 10_state.md R29, 60_exceptions.md R210: no command's behaviour depends on the error record: on two blocks that
differ at most there, a command does the same, and every command but `RSTAT` and `RERR` answers the same. -/
def Obligations.ErrorRecordInfluencesNoCommand : Prop :=
  ∀ (i : Instr) (s s' t : State), sameButErrors s.block s'.block → exec i s = .next t →
    ∃ t' r r', exec i s' = .next t' ∧ sameButErrors t.block t'.block ∧ t.responses = s.responses ++ [r] ∧
      t'.responses = s'.responses ++ [r'] ∧ r.code = r'.code ∧ (i ≠ .rstat → i ≠ .rerr → r = r')

/-- 30_encoding.md R80, R82: each command accepted is answered exactly once, after all earlier answers; an error answers
0, and so does a command that returns no data. -/
def Obligations.OneResponsePerCommandInOrder : Prop :=
  ∀ (s t : State) (cmd : CmdWord) (din : Word) (es : List Event),
    s.pending = .command cmd din :: es → step s = .next t →
    ∃ r : Response, t.responses = s.responses ++ [r] ∧ t.pending = es ∧ (r.code ≠ .ok → r.dout = 0) ∧
      (∀ i, decode cmd din = .ok i → ¬ isRead i → r.dout = 0)

/-! ### Encoding -/

/-- 30_encoding.md R85: the command word of each command as a number: its opcode and its fields each in its place. -/
def Obligations.CommandWordsHoldTheirFieldsInPlace : Prop :=
  (∀ i : Instr, i.format = .N → (cmdOf i).toNat = i.op.toNat * 2 ^ 12) ∧
  (∀ (c : CharCode) (v : Word), (cmdOf (.wfreq c v)).toNat = 0x3 * 2 ^ 12 + c.toNat) ∧
  (∀ c : CharCode, (cmdOf (.rfreq c)).toNat = 0x4 * 2 ^ 12 + c.toNat) ∧
  (∀ c : CharCode, (cmdOf (.rclen c)).toNat = 0xC * 2 ^ 12 + c.toNat) ∧
  (∀ n : NodeField, (cmdOf (.rnode n)).toNat = 0x9 * 2 ^ 12 + n.toNat) ∧
  (∀ n : NodeField, (cmdOf (.rnfl n)).toNat = 0xA * 2 ^ 12 + n.toNat) ∧
  (∀ n : NodeField, (cmdOf (.rnfh n)).toNat = 0xB * 2 ^ 12 + n.toNat) ∧
  (∀ (c : CharCode) (w : WordSel),
    (cmdOf (.rcbits c w)).toNat = 0xD * 2 ^ 12 + w.toNat * 2 ^ 8 + c.toNat)

/-- Decoding the encoding of any well-formed command gives it back, with every operand at every value (30_encoding.md
R83 to R88). -/
def Obligations.DecodeGivesBackEveryEncodedCommand : Prop :=
  ∀ i : Instr, i.wellFormed = true → decode (encode i).1 (encode i).2 = .ok i

/-- A word that decodes is the word of the command it decodes to, which is well formed, and the data-in value is kept
where the command takes it (30_encoding.md R84, R85). -/
def Obligations.EncodeGivesBackEveryLegalWord : Prop :=
  ∀ (cmd : CmdWord) (din : Word) (i : Instr), decode cmd din = .ok i →
    i.wellFormed = true ∧ cmdOf i = cmd ∧ (opField cmd = 3 → dinOf i = din)

/-- 60_exceptions.md R201 with the order of 30_encoding.md R88 and 60_exceptions.md R205: the words that answer ILLEGAL,
in every state, and by which check. -/
def Obligations.IllegalWordsAreThoseOfTheRule : Prop :=
  ∀ (cmd : CmdWord) (din : Word),
    (∀ (s : State) (es : List Event), s.pending = .command cmd din :: es →
      ((∃ t, step s = .next t ∧ t.responses = s.responses ++ [{ code := .illegal, dout := 0 }]) ↔
        (opField cmd = 0x0 ∨ opField cmd = 0xF) ∨
        (opField cmd ∈ [0x1#4, 0x2#4, 0x5#4, 0x6#4, 0x7#4, 0x8#4, 0xE#4] ∧ cmd.extractLsb' 0 12 ≠ 0) ∨
        (opField cmd ∈ [0x3#4, 0x4#4, 0xC#4] ∧ cmd.extractLsb' 8 4 ≠ 0) ∨
        (opField cmd ∈ [0x9#4, 0xA#4, 0xB#4] ∧
          (cmd.extractLsb' 9 3 ≠ 0 ∨ (cmd.extractLsb' 0 9).toNat = 511)) ∨
        (opField cmd = 0xD ∧ cmd.getLsbD 11 = true))) ∧
    (decode cmd din = .error .reservedOpcode ↔ opField cmd = 0x0 ∨ opField cmd = 0xF) ∧
    (decode cmd din = .error .nodeIndex511 ↔ opField cmd ∈ [0x9#4, 0xA#4, 0xB#4] ∧
      cmd.extractLsb' 9 3 = 0 ∧ (cmd.extractLsb' 0 9).toNat = 511)

/-- 30_encoding.md R84: the data-in value of every command but `WFREQ` is ignored. -/
def Obligations.DataInIsIgnoredExceptByWfreq : Prop :=
  ∀ (cmd : CmdWord) (d1 d2 : Word) (s : State) (es : List Event), opField cmd ≠ 3 →
    step { s with pending := .command cmd d1 :: es } = step { s with pending := .command cmd d2 :: es }

/-- Words written out from 30_encoding.md R86 and 95_test_vectors.md V1 decode to the commands they stand for, one of
each format and family; and 0x91FF, 0x1001, 0xFFFF to none. -/
def Obligations.SampleWordsDecode : Prop :=
  decode 0x1000 7 = .ok .clear ∧ decode 0x3061 2 = .ok (.wfreq 97 2) ∧ decode 0x5000 0 = .ok .build ∧
    decode 0x6000 0 = .ok .gen ∧ decode 0x91FE 0 = .ok (.rnode 510) ∧ decode 0xA103 0 = .ok (.rnfl 259) ∧
    decode 0xC066 0 = .ok (.rclen 102) ∧ decode 0xD7FF 0 = .ok (.rcbits 255 7) ∧
    decode 0x91FF 0 = .error .nodeIndex511 ∧ decode 0x1001 0 = .error .mustBeZero ∧
    decode 0xFFFF 0 = .error .reservedOpcode

/-- A step runs the decoded command (30_encoding.md R88): it takes the pair from the port and runs `exec` of what the
word spells. With nothing sent the block waits, unchanged: that clause is the model's (DEDUCED, log 10). -/
def Obligations.StepRunsTheDecodedCommand : Prop :=
  (∀ (s : State) (cmd : CmdWord) (din : Word) (es : List Event) (i : Instr),
    s.pending = .command cmd din :: es → decode cmd din = .ok i → step s = exec i { s with pending := es }) ∧
  (∀ s : State, s.pending = [] → step s = .next s)

/-! ### The tree builder -/

/-- 41_tree_build.md R121: `BUILD` in any state completes, writes `NODE`, `NLEAF`, `ROOT` and `PHASE`, and nothing else. -/
def Obligations.BuildCompletesAndWritesTheTreeOnly : Prop :=
  ∀ s : State, ∃ (ns : NodeStore) (k : BitVec 9) (r : Idx), exec .build s =
    .next { s with block := { s.block with node := ns, nleaf := k, root := r, phase := .tree }
                   responses := s.responses ++ [{ code := .ok, dout := 0 }] }

/-- 41_tree_build.md R137: `NODE`, `NLEAF` and `ROOT` after `BUILD` are a function of the contents of `FREQ` alone. -/
def Obligations.BuildDependsOnTheFrequenciesAlone : Prop :=
  ∀ s s' t t' : State, (∀ c, readFreq s.block.freq c = readFreq s'.block.freq c) →
    exec .build s = .next t → exec .build s' = .next t' →
    t.block.node = t'.block.node ∧ t.block.nleaf = t'.block.nleaf ∧ t.block.root = t'.block.root

/-- 41_tree_build.md R122, R123: the comparator is by frequency and then representative character as unsigned numbers,
and on nodes of different representative characters it is a strict total order. -/
def Obligations.ComparatorIsAStrictTotalOrder : Prop :=
  (∀ a b : Node, a.lt b = true ↔ a.freq.toNat < b.freq.toNat ∨
    (a.freq.toNat = b.freq.toNat ∧ a.rep.toNat < b.rep.toNat)) ∧
  (∀ a : Node, a.lt a = false) ∧
  (∀ a b c : Node, a.lt b = true → b.lt c = true → a.lt c = true) ∧
  (∀ a b : Node, a.rep ≠ b.rep → (a.lt b = true ∧ b.lt a = false) ∨ (a.lt b = false ∧ b.lt a = true))

/-- 41_tree_build.md R124: on a non-empty working set of pairwise different representative characters, selection yields
the one element that is less than every other, and leaves exactly the others. -/
def Obligations.SelectionYieldsTheUniqueLeast : Prop :=
  ∀ w : List Entry, w ≠ [] → (w.map (fun e => e.node.rep)).Nodup →
    ∃ m rest, takeLeast w = some (m, rest) ∧ w.Perm (m :: rest) ∧ ∀ x ∈ rest, m.node.lt x.node = true

/-- 41_tree_build.md R129, R130: the loop ends with `min(NLEAF, 1)` nodes in the working set and `NEXT` at
`256 + max(NLEAF - 1, 0)`, at most 511, having filled that many slots; `2 * NLEAF - 1` slots are valid, none when
`NLEAF` is 0; and `NLEAF` counts the characters that occur (10_state.md R27). -/
def Obligations.BuildRunsToOneNodeAndCountsItsSlots : Prop :=
  ∀ f : FreqStore,
    (buildTree f).nleaf.toNat = presentCount f ∧ (buildTree f).nleaf.toNat ≤ 256 ∧
    (builtWork f).queue.length = min (buildTree f).nleaf.toNat 1 ∧
    (builtWork f).next = 256 + ((buildTree f).nleaf.toNat - 1) ∧ (builtWork f).next ≤ 511 ∧
    (buildTree f).node.length = 2 * (buildTree f).nleaf.toNat - 1

/-- 10_state.md R33 (a), (b), (c), 41_tree_build.md R132: after `BUILD` in any state, which slots hold which nodes, and
that the children of an internal node are valid slots of lower index. -/
def Obligations.BuiltTreeHasTheShapeOfTheRule : Prop :=
  ∀ s : State, ∃ t, exec .build s = .next t ∧
    (∀ c, readNode t.block.node (leafSlot c) =
      if readFreq s.block.freq c = 0 then none else some (.leaf c ((readFreq s.block.freq c).setWidth 40))) ∧
    (∀ n : Idx, 256 ≤ n.val →
      ((∃ rep f l r, readNode t.block.node n = some (.internal rep f l r)) ↔
        n.val + 2 ≤ 256 + t.block.nleaf.toNat) ∧
      (¬ n.val + 2 ≤ 256 + t.block.nleaf.toNat → readNode t.block.node n = none)) ∧
    (∀ (n : Idx) rep f l r, readNode t.block.node n = some (.internal rep f l r) →
      l < n ∧ r < n ∧ (readNode t.block.node l).isSome ∧ (readNode t.block.node r).isSome)

/-- 41_tree_build.md R133: after `BUILD` every valid slot but `ROOT` is the child of exactly one internal node and not
both its left and its right child, `ROOT` is the child of none, and every valid slot is `ROOT` or below it. -/
def Obligations.BuiltNodesHaveOneParentEach : Prop :=
  ∀ s : State, ∃ t, exec .build s = .next t ∧
    (∀ n : Idx, (readNode t.block.node n).isSome → n ≠ t.block.root → ∃! m, childOf t.block.node m n) ∧
    (∀ m, ¬ childOf t.block.node m t.block.root) ∧
    (∀ (n : Idx) rep f l r, readNode t.block.node n = some (.internal rep f l r) → l ≠ r) ∧
    (∀ n : Idx, (readNode t.block.node n).isSome → ∃ p, walk t.block.node p t.block.root = some n)

/-- 41_tree_build.md R131: what `ROOT` is after `BUILD`, by the number of leaves. -/
def Obligations.BuiltRootIsTheLastNode : Prop :=
  ∀ s : State, ∃ t, exec .build s = .next t ∧
    (t.block.nleaf.toNat = 0 → t.block.root.val = 0 ∧ rootvFlag t.block = false) ∧
    (t.block.nleaf.toNat = 1 → ∀ c, readFreq s.block.freq c ≠ 0 → t.block.root.val = c.toNat) ∧
    (2 ≤ t.block.nleaf.toNat → t.block.root.val = 256 + t.block.nleaf.toNat - 2)

/-- 41_tree_build.md R125, R126, R124: after `BUILD` each internal node holds the sum of its children's frequencies as
numbers (no addition wraps) and the minimum of their representative characters, its left child is less than its right
child by the comparator, and no valid node has frequency 0 (43_result_read.md R173). -/
def Obligations.BuiltNodesCombineTheirChildren : Prop :=
  ∀ s : State, ∃ t, exec .build s = .next t ∧
    (∀ (n : Idx) rep f l r, readNode t.block.node n = some (.internal rep f l r) →
      ∃ a b, readNode t.block.node l = some a ∧ readNode t.block.node r = some b ∧
        f.toNat = a.freq.toNat + b.freq.toNat ∧ rep.toNat = min a.rep.toNat b.rep.toNat ∧ a.lt b = true) ∧
    (∀ (n : Idx) v, readNode t.block.node n = some v → v.freq.toNat ≠ 0)

/-- 41_tree_build.md R127, R134: after `BUILD`, for every valid slot, `rep` is the least of the characters below it and
`freq` is the sum of their counts; no character is below it twice; and the root's frequency is the sum of all 256
entries. -/
def Obligations.BuiltNodesSumTheLeavesBelow : Prop :=
  ∀ s : State, ∃ t, exec .build s = .next t ∧
    (∀ (n : Idx) v, readNode t.block.node n = some v →
      v.rep ∈ leavesBelow t.block.node 256 n ∧ (∀ c ∈ leavesBelow t.block.node 256 n, v.rep.toNat ≤ c.toNat) ∧
      (leavesBelow t.block.node 256 n).Nodup ∧
      v.freq.toNat = ((leavesBelow t.block.node 256 n).map (fun c => (readFreq s.block.freq c).toNat)).sum) ∧
    (1 ≤ t.block.nleaf.toNat →
      ∃ v, readNode t.block.node t.block.root = some v ∧ v.freq.toNat = totalCount s.block.freq)

/-- 41_tree_build.md R135, 42_code_gen.md R155: the empty table. `BUILD` gives no node, and the words read as the rule
says when no error is on record; a following `GEN` gives no code. -/
def Obligations.EmptyTableGivesTheEmptyTree : Prop :=
  ∀ s : State, (∀ c, readFreq s.block.freq c = 0) → ∃ t u,
    exec .build s = .next t ∧ t.responses = s.responses ++ [{ code := .ok, dout := 0 }] ∧
    (∀ n, readNode t.block.node n = none) ∧ t.block.nleaf = 0 ∧ t.block.root = 0 ∧ t.block.phase = .tree ∧
    (s.block.errIll = false → s.block.errSeq = false → statusWord t.block = 0x00000005) ∧
    rootWord t.block = 0x00000000 ∧
    exec .gen t = .next u ∧ u.responses = t.responses ++ [{ code := .ok, dout := 0 }] ∧ u.block.phase = .codes ∧
    (∀ c, readCode u.block.code c = none) ∧
    (∀ c, exec (.rclen c) u = .next { u with responses := u.responses ++ [{ code := .ok, dout := 0x00000000 }] })

/-- 41_tree_build.md R136, 42_code_gen.md R159: the table with one entry. `BUILD` gives its leaf alone, and the words read
as the rule says when no error is on record; a following `GEN` gives that character the empty path and no other
character a code. -/
def Obligations.SingleEntryTableGivesOneLeaf : Prop :=
  ∀ (s : State) (c : CharCode), readFreq s.block.freq c ≠ 0 →
    (∀ d, d ≠ c → readFreq s.block.freq d = 0) → ∃ t u,
    exec .build s = .next t ∧
    readNode t.block.node (leafSlot c) = some (.leaf c ((readFreq s.block.freq c).setWidth 40)) ∧
    (∀ n, n ≠ leafSlot c → readNode t.block.node n = none) ∧ t.block.nleaf = 1 ∧ t.block.root = leafSlot c ∧
    (s.block.errIll = false → s.block.errSeq = false → statusWord t.block = 0x00010009) ∧
    rootWord t.block = 0x200#32 ||| c.setWidth 32 ∧
    exec .gen t = .next u ∧ readCode u.block.code c = some [] ∧ (∀ d, d ≠ c → readCode u.block.code d = none) ∧
    (∃ v, exec (.rclen c) u = .next v ∧ v.responses = u.responses ++ [{ code := .ok, dout := 0x00000100 }]) ∧
    (∀ w, ∃ v, exec (.rcbits c w) u = .next v ∧ v.responses = u.responses ++ [{ code := .ok, dout := 0 }])

/-! ### The code-table generator -/

/-- 42_code_gen.md R151, R160: in a state a run can reach, `GEN` in phases TREE and CODES completes; it writes `CODE` and
`PHASE` and leaves `NODE`, `NLEAF`, `ROOT`, `FREQ` and the error record as they are. -/
def Obligations.GenCompletesAndWritesTheCodesOnly : Prop :=
  ∀ s : State, StateInv s → s.block.phase ≠ .load → ∃ cs : CodeStore, exec .gen s =
    .next { s with block := { s.block with code := cs, phase := .codes }
                   responses := s.responses ++ [{ code := .ok, dout := 0 }] }

/-- 41_tree_build.md R121, 42_code_gen.md R161 (D10, D30): in a state a run can reach, `BUILD` again gives the same tree,
and `GEN` again the same codes. -/
def Obligations.RebuildingChangesNoResult : Prop :=
  ∀ s t : State, StateInv s →
    (s.block.phase ≠ .load → exec .build s = .next t →
      t.block.node = s.block.node ∧ t.block.nleaf = s.block.nleaf ∧ t.block.root = s.block.root) ∧
    (s.block.phase = .codes → exec .gen s = .next t → t.block = s.block)

/-- 42_code_gen.md R154, 10_state.md R39: in phase CODES of a state a run can reach, a character has a code exactly when
its count is not 0, and the number of codes is `NLEAF`. -/
def Obligations.CodesArePresentExactlyForCountedCharacters : Prop :=
  ∀ s : State, StateInv s → s.block.phase = .codes →
    (∀ c, (readCode s.block.code c).isSome ↔ readFreq s.block.freq c ≠ 0) ∧
    s.block.code.length = s.block.nleaf.toNat

/-- 42_code_gen.md R162, R153: following a stored code from `ROOT` passes through internal nodes only and ends at the
leaf of its character. -/
def Obligations.WalkingACodeEndsAtItsLeaf : Prop :=
  ∀ (s : State) (c : CharCode) (p : Path), StateInv s → s.block.phase = .codes →
    readCode s.block.code c = some p →
    walk s.block.node p s.block.root = some (leafSlot c) ∧
      ∃ f, readNode s.block.node (leafSlot c) = some (.leaf c f)

/-- 42_code_gen.md R157: no stored code is a prefix of another character's. -/
def Obligations.CodesArePrefixFree : Prop :=
  ∀ (s : State) (c d : CharCode) (p q : Path), StateInv s → s.block.phase = .codes →
    readCode s.block.code c = some p → readCode s.block.code d = some q → c ≠ d → ¬ p <+: q

/-- 42_code_gen.md R158, 10_state.md R37: the lengths of codes: at least 1 with two or more leaves, 0 with one, and never
more than `NLEAF - 1`, hence at most 255. -/
def Obligations.CodeLengthsAreBounded : Prop :=
  ∀ (s : State) (c : CharCode) (p : Path), StateInv s → s.block.phase = .codes →
    readCode s.block.code c = some p →
    (2 ≤ s.block.nleaf.toNat → 1 ≤ p.length) ∧ (s.block.nleaf.toNat = 1 → p.length = 0) ∧
      p.length + 1 ≤ s.block.nleaf.toNat ∧ p.length ≤ 255

/-! ### Reading the results -/

/-- 43_result_read.md R171, 10_state.md R45: in phases TREE and CODES `RROOT` answers `ROOTW`, field by field, and changes
nothing; in the states a run can reach `ROOT` reads 0 where `ROOTV` does. -/
def Obligations.RrootAnswersTheFieldsOfRootw : Prop :=
  ∀ s : State, s.block.phase ≠ .load → ∃ w : Word,
    exec .rroot s = .next { s with responses := s.responses ++ [{ code := .ok, dout := w }] } ∧
    (w.extractLsb' 0 9).toNat = s.block.root.val ∧ w.getLsbD 9 = decide (1 ≤ s.block.nleaf.toNat) ∧
    w.extractLsb' 10 22 = 0 ∧ (StateInv s → w.getLsbD 9 = false → w = 0)

/-- 10_state.md R47, 43_result_read.md R172: in phases TREE and CODES `RNODE n`, for n up to 510, answers `NINFO(n)`, field
by field, and changes nothing: 0 for a slot that holds no node. -/
def Obligations.RnodeAnswersTheFieldsOfNinfo : Prop :=
  ∀ (s : State) (n : NodeField) (k : Idx), s.block.phase ≠ .load → n.toNat = k.val → ∃ w : Word,
    exec (.rnode n) s = .next { s with responses := s.responses ++ [{ code := .ok, dout := w }] } ∧
    (readNode s.block.node k = none → w = 0x00000000) ∧
    (∀ rep f, readNode s.block.node k = some (.leaf rep f) →
      w.extractLsb' 0 18 = 0 ∧ w.extractLsb' 18 8 = rep ∧ w.getLsbD 26 = false ∧ w.getLsbD 27 = true ∧
        w.extractLsb' 28 4 = 0) ∧
    (∀ rep f l r, readNode s.block.node k = some (.internal rep f l r) →
      (w.extractLsb' 0 9).toNat = l.val ∧ (w.extractLsb' 9 9).toNat = r.val ∧ w.extractLsb' 18 8 = rep ∧
        w.getLsbD 26 = true ∧ w.getLsbD 27 = true ∧ w.extractLsb' 28 4 = 0)

/-- 10_state.md R48, R49, 20_memory.md R61: in phases TREE and CODES `RNFL n` and `RNFH n`, for n up to 510, complete,
change nothing, and answer the two parts of the node's frequency: `freq = (NFH << 32) | NFL`, and 0 for no node. -/
def Obligations.RnflAndRnfhAnswerTheFrequency : Prop :=
  ∀ (s : State) (n : NodeField) (k : Idx), s.block.phase ≠ .load → n.toNat = k.val → ∃ lo hi : Word,
    exec (.rnfl n) s = .next { s with responses := s.responses ++ [{ code := .ok, dout := lo }] } ∧
    exec (.rnfh n) s = .next { s with responses := s.responses ++ [{ code := .ok, dout := hi }] } ∧
    (readNode s.block.node k = none → lo = 0 ∧ hi = 0) ∧
    (∀ v, readNode s.block.node k = some v →
      lo = v.freq.extractLsb' 0 32 ∧ hi.extractLsb' 0 8 = v.freq.extractLsb' 32 8 ∧ hi.extractLsb' 8 24 = 0 ∧
        v.freq.toNat = hi.toNat * 2 ^ 32 + lo.toNat ∧ rnfreqValue lo hi = v.freq)

/-- 10_state.md R50, 43_result_read.md R175: in phase CODES `RCLEN c` answers `CLENW(c)`, field by field, and changes
nothing: 0 when the character has no code; else the length, `PRESENT` and zeros. A path longer than 255 stands in no
state a run can reach (`CodeLengthsAreBounded`). -/
def Obligations.RclenAnswersTheFieldsOfClenw : Prop :=
  ∀ (s : State) (c : CharCode), s.block.phase = .codes → ∃ w : Word,
    exec (.rclen c) s = .next { s with responses := s.responses ++ [{ code := .ok, dout := w }] } ∧
    (readCode s.block.code c = none → w = 0) ∧
    (∀ p, readCode s.block.code c = some p → p.length ≤ 255 →
      (w.extractLsb' 0 8).toNat = p.length ∧ w.getLsbD 8 = true ∧ w.extractLsb' 9 23 = 0)

/-- 10_state.md R51, 43_result_read.md R176: in phase CODES `RCBITS c, w` answers `CBITSW(c, w)`, bit by bit, and changes
nothing; the last bit of the last word is 0 for every path of at most 255 symbols. -/
def Obligations.RcbitsAnswersTheSymbols : Prop :=
  ∀ (s : State) (c : CharCode) (w : WordSel), s.block.phase = .codes → ∃ v : Word,
    exec (.rcbits c w) s = .next { s with responses := s.responses ++ [{ code := .ok, dout := v }] } ∧
    (readCode s.block.code c = none → v = 0) ∧
    (∀ p, readCode s.block.code c = some p →
      (∀ j, j < 32 → v.getLsbD j =
        if h : 32 * w.toNat + j < p.length then p[32 * w.toNat + j] else false) ∧
      (p.length ≤ 255 → w = 7 → v.getLsbD 31 = false))

/-- 30_encoding.md R95, `RCODE c`: what the host forms from the length word and the eight words of symbols is the stored
code, for every path a run can store. -/
def Obligations.RcodeReadsBackTheStoredCode : Prop :=
  ∀ slot : Option Path, (∀ p, slot = some p → p.length ≤ 255) →
    rcodeValue (clenw slot) (allWordSels.map (fun w => cbitsw slot w)) = slot

/-- 30_encoding.md R94: a line the assembler accepts emits no illegal word, except through `.word`. -/
def Obligations.AssemblerEmitsLegalWordsOnly : Prop :=
  ∀ (text : List Char) (l : AsmLine), parseLine text = .ok (some l) → (∀ x v, l ≠ .raw x v) →
    ∀ p ∈ emitLine l, ∃ i, decode p.1 p.2 = .ok i

/-! ### The whole machine -/

/-- The invariant holds right after reset. -/
def Obligations.ResetStateMeetsTheInvariant : Prop := StateInv State.reset

/-- Every step keeps the invariant, from every state that meets it: the stores keep their canonical form, whatever tree
or code table can be read is that of the present `FREQ` (10_state.md R24; 20_memory.md R70, R71), and the error record is
consistent (10_state.md R46). -/
def Obligations.StepKeepsTheInvariant : Prop :=
  ∀ s t : State, StateInv s → step s = .next t → StateInv t

/-- 60_exceptions.md R213: in every state a run can reach the block goes on, whatever is sent, and `CLEAR` brings it to
the reset state. -/
def Obligations.EveryReachableStateGoesOn : Prop :=
  (∀ s : State, StateInv s → ∃ t, step s = .next t) ∧
  (∀ s t : State, exec .clear s = .next t → t.block = State.reset.block)

/-- 10_state.md R56, 00_scope.md R11: two states that differ only in parts their phase makes unreadable stay so along
every run of any length, and give the same responses. -/
def Obligations.UnreadablePartsAreNeverObserved : Prop :=
  ∀ (k : Nat) (s s' : State), indistinguishable s s' → sameOutcome indistinguishable (runSteps k s) (runSteps k s')
end

