-- ==== Sys2Proof/Laws/State.lean ====
section
/-! SUPPORT. One lemma per field per update, true by `rfl`, so that no later proof unfolds a record update; and the
agreement of the value types with the parameters of 00_scope.md R7. -/

namespace Sys2Proof.Machine

theorem value_types_have_config_widths :
    CharCode = BitVec Config.cw ∧ Freq = BitVec Config.fw ∧ FreqSum = BitVec Config.sw ∧ Idx = Fin Config.nnode ∧
      NodeField = BitVec Config.nw ∧ CmdWord = BitVec Config.cmdw ∧ Word = BitVec Config.dw :=
  ⟨rfl, rfl, rfl, rfl, rfl, rfl, rfl⟩

/-! ### Updates of the block -/

@[simp] theorem wfreqBlock_freq (c : CharCode) (v : Word) (b : Block) : (wfreqBlock c v b).freq = writeFreq b.freq c v := rfl
@[simp] theorem wfreqBlock_phase (c : CharCode) (v : Word) (b : Block) : (wfreqBlock c v b).phase = .load := rfl
@[simp] theorem wfreqBlock_nleaf (c : CharCode) (v : Word) (b : Block) : (wfreqBlock c v b).nleaf = b.nleaf := rfl
@[simp] theorem wfreqBlock_root (c : CharCode) (v : Word) (b : Block) : (wfreqBlock c v b).root = b.root := rfl
@[simp] theorem wfreqBlock_node (c : CharCode) (v : Word) (b : Block) : (wfreqBlock c v b).node = b.node := rfl
@[simp] theorem wfreqBlock_code (c : CharCode) (v : Word) (b : Block) : (wfreqBlock c v b).code = b.code := rfl
@[simp] theorem wfreqBlock_errIll (c : CharCode) (v : Word) (b : Block) : (wfreqBlock c v b).errIll = b.errIll := rfl
@[simp] theorem wfreqBlock_errSeq (c : CharCode) (v : Word) (b : Block) : (wfreqBlock c v b).errSeq = b.errSeq := rfl
@[simp] theorem wfreqBlock_ecmd (c : CharCode) (v : Word) (b : Block) : (wfreqBlock c v b).ecmd = b.ecmd := rfl
@[simp] theorem wfreqBlock_ecode (c : CharCode) (v : Word) (b : Block) : (wfreqBlock c v b).ecode = b.ecode := rfl

@[simp] theorem buildBlock_freq (b : Block) : (buildBlock b).freq = b.freq := rfl
@[simp] theorem buildBlock_phase (b : Block) : (buildBlock b).phase = .tree := rfl
@[simp] theorem buildBlock_nleaf (b : Block) : (buildBlock b).nleaf = (buildTree b.freq).nleaf := rfl
@[simp] theorem buildBlock_root (b : Block) : (buildBlock b).root = (buildTree b.freq).root := rfl
@[simp] theorem buildBlock_node (b : Block) : (buildBlock b).node = (buildTree b.freq).node := rfl
@[simp] theorem buildBlock_code (b : Block) : (buildBlock b).code = b.code := rfl
@[simp] theorem buildBlock_errIll (b : Block) : (buildBlock b).errIll = b.errIll := rfl
@[simp] theorem buildBlock_errSeq (b : Block) : (buildBlock b).errSeq = b.errSeq := rfl
@[simp] theorem buildBlock_ecmd (b : Block) : (buildBlock b).ecmd = b.ecmd := rfl
@[simp] theorem buildBlock_ecode (b : Block) : (buildBlock b).ecode = b.ecode := rfl

@[simp] theorem genBlock_freq (cs : CodeStore) (b : Block) : (genBlock cs b).freq = b.freq := rfl
@[simp] theorem genBlock_phase (cs : CodeStore) (b : Block) : (genBlock cs b).phase = .codes := rfl
@[simp] theorem genBlock_nleaf (cs : CodeStore) (b : Block) : (genBlock cs b).nleaf = b.nleaf := rfl
@[simp] theorem genBlock_root (cs : CodeStore) (b : Block) : (genBlock cs b).root = b.root := rfl
@[simp] theorem genBlock_node (cs : CodeStore) (b : Block) : (genBlock cs b).node = b.node := rfl
@[simp] theorem genBlock_code (cs : CodeStore) (b : Block) : (genBlock cs b).code = cs := rfl
@[simp] theorem genBlock_errIll (cs : CodeStore) (b : Block) : (genBlock cs b).errIll = b.errIll := rfl
@[simp] theorem genBlock_errSeq (cs : CodeStore) (b : Block) : (genBlock cs b).errSeq = b.errSeq := rfl
@[simp] theorem genBlock_ecmd (cs : CodeStore) (b : Block) : (genBlock cs b).ecmd = b.ecmd := rfl
@[simp] theorem genBlock_ecode (cs : CodeStore) (b : Block) : (genBlock cs b).ecode = b.ecode := rfl

@[simp] theorem clearErrors_freq (b : Block) : (clearErrors b).freq = b.freq := rfl
@[simp] theorem clearErrors_phase (b : Block) : (clearErrors b).phase = b.phase := rfl
@[simp] theorem clearErrors_nleaf (b : Block) : (clearErrors b).nleaf = b.nleaf := rfl
@[simp] theorem clearErrors_root (b : Block) : (clearErrors b).root = b.root := rfl
@[simp] theorem clearErrors_node (b : Block) : (clearErrors b).node = b.node := rfl
@[simp] theorem clearErrors_code (b : Block) : (clearErrors b).code = b.code := rfl
@[simp] theorem clearErrors_errIll (b : Block) : (clearErrors b).errIll = false := rfl
@[simp] theorem clearErrors_errSeq (b : Block) : (clearErrors b).errSeq = false := rfl
@[simp] theorem clearErrors_ecmd (b : Block) : (clearErrors b).ecmd = 0 := rfl
@[simp] theorem clearErrors_ecode (b : Block) : (clearErrors b).ecode = .ok := rfl

@[simp] theorem recordError_illegal_freq (cmd : CmdWord) (b : Block) : (recordError .illegal cmd b).freq = b.freq := rfl
@[simp] theorem recordError_illegal_phase (cmd : CmdWord) (b : Block) : (recordError .illegal cmd b).phase = b.phase := rfl
@[simp] theorem recordError_illegal_nleaf (cmd : CmdWord) (b : Block) : (recordError .illegal cmd b).nleaf = b.nleaf := rfl
@[simp] theorem recordError_illegal_root (cmd : CmdWord) (b : Block) : (recordError .illegal cmd b).root = b.root := rfl
@[simp] theorem recordError_illegal_node (cmd : CmdWord) (b : Block) : (recordError .illegal cmd b).node = b.node := rfl
@[simp] theorem recordError_illegal_code (cmd : CmdWord) (b : Block) : (recordError .illegal cmd b).code = b.code := rfl
@[simp] theorem recordError_illegal_errIll (cmd : CmdWord) (b : Block) : (recordError .illegal cmd b).errIll = true := rfl
@[simp] theorem recordError_illegal_errSeq (cmd : CmdWord) (b : Block) : (recordError .illegal cmd b).errSeq = b.errSeq := rfl
@[simp] theorem recordError_illegal_ecmd (cmd : CmdWord) (b : Block) : (recordError .illegal cmd b).ecmd = cmd := rfl
@[simp] theorem recordError_illegal_ecode (cmd : CmdWord) (b : Block) : (recordError .illegal cmd b).ecode = .illegal := rfl

@[simp] theorem recordError_seq_freq (cmd : CmdWord) (b : Block) : (recordError .seq cmd b).freq = b.freq := rfl
@[simp] theorem recordError_seq_phase (cmd : CmdWord) (b : Block) : (recordError .seq cmd b).phase = b.phase := rfl
@[simp] theorem recordError_seq_nleaf (cmd : CmdWord) (b : Block) : (recordError .seq cmd b).nleaf = b.nleaf := rfl
@[simp] theorem recordError_seq_root (cmd : CmdWord) (b : Block) : (recordError .seq cmd b).root = b.root := rfl
@[simp] theorem recordError_seq_node (cmd : CmdWord) (b : Block) : (recordError .seq cmd b).node = b.node := rfl
@[simp] theorem recordError_seq_code (cmd : CmdWord) (b : Block) : (recordError .seq cmd b).code = b.code := rfl
@[simp] theorem recordError_seq_errIll (cmd : CmdWord) (b : Block) : (recordError .seq cmd b).errIll = b.errIll := rfl
@[simp] theorem recordError_seq_errSeq (cmd : CmdWord) (b : Block) : (recordError .seq cmd b).errSeq = true := rfl
@[simp] theorem recordError_seq_ecmd (cmd : CmdWord) (b : Block) : (recordError .seq cmd b).ecmd = cmd := rfl
@[simp] theorem recordError_seq_ecode (cmd : CmdWord) (b : Block) : (recordError .seq cmd b).ecode = .seq := rfl

@[simp] theorem resetBlock_eq (b : Block) : resetBlock b = Block.reset := rfl

/-! ### The reset values -/

@[simp] theorem reset_freq : Block.reset.freq = [] := rfl
@[simp] theorem reset_phase : Block.reset.phase = .load := rfl
@[simp] theorem reset_nleaf : Block.reset.nleaf = 0 := rfl
@[simp] theorem reset_root : Block.reset.root = 0 := rfl
@[simp] theorem reset_node : Block.reset.node = [] := rfl
@[simp] theorem reset_code : Block.reset.code = [] := rfl
@[simp] theorem reset_errIll : Block.reset.errIll = false := rfl
@[simp] theorem reset_errSeq : Block.reset.errSeq = false := rfl
@[simp] theorem reset_ecmd : Block.reset.ecmd = 0 := rfl
@[simp] theorem reset_ecode : Block.reset.ecode = .ok := rfl
@[simp] theorem state_reset_block : State.reset.block = Block.reset := rfl
@[simp] theorem state_reset_pending : State.reset.pending = [] := rfl
@[simp] theorem state_reset_responses : State.reset.responses = [] := rfl

/-! ### Updates of the state -/

@[simp] theorem respondOk_block (v : Word) (s : State) : (respondOk v s).block = s.block := rfl
@[simp] theorem respondOk_pending (v : Word) (s : State) : (respondOk v s).pending = s.pending := rfl
@[simp] theorem respondOk_responses (v : Word) (s : State) : (respondOk v s).responses = s.responses ++ [{ code := .ok, dout := v }] := rfl

@[simp] theorem onBlock_block (f : Block → Block) (s : State) : (onBlock f s).block = f s.block := rfl
@[simp] theorem onBlock_pending (f : Block → Block) (s : State) : (onBlock f s).pending = s.pending := rfl
@[simp] theorem onBlock_responses (f : Block → Block) (s : State) : (onBlock f s).responses = s.responses := rfl

@[simp] theorem raiseErr_block (e : Resp) (cmd : CmdWord) (s : State) : (raiseErr e cmd s).block = recordError e cmd s.block := rfl
@[simp] theorem raiseErr_pending (e : Resp) (cmd : CmdWord) (s : State) : (raiseErr e cmd s).pending = s.pending := rfl
@[simp] theorem raiseErr_responses (e : Resp) (cmd : CmdWord) (s : State) : (raiseErr e cmd s).responses = s.responses ++ [{ code := e, dout := 0 }] := rfl

@[simp] theorem applyReset_block (s : State) : (applyReset s).block = Block.reset := rfl
@[simp] theorem applyReset_pending (s : State) : (applyReset s).pending = s.pending := rfl
@[simp] theorem applyReset_responses (s : State) : (applyReset s).responses = s.responses := rfl

@[simp] theorem sendFirst_block (e : Event) (s : State) : (sendFirst e s).block = s.block := rfl
@[simp] theorem sendFirst_pending (e : Event) (s : State) : (sendFirst e s).pending = e :: s.pending := rfl
@[simp] theorem sendFirst_responses (e : Event) (s : State) : (sendFirst e s).responses = s.responses := rfl

end Sys2Proof.Machine
end

