-- ==== Sys2Proof/Laws/Store.lean ====
section
/-! SUPPORT. The laws of the sparse stores: what is read after a write, and that every operation keeps the canonical
form. The reading laws hold of every list, canonical or not. -/

namespace Sys2Proof.Machine

variable {α : Type}

/-! ### Reading after writing -/

@[simp] theorem storeFind_nil (i : Nat) : storeFind ([] : List (Nat × α)) i = none := rfl

theorem storeFind_insert (st : List (Nat × α)) (i j : Nat) (v : α) :
    storeFind (storeInsert st i v) j = if i = j then some v else storeFind st j := by
  induction st with
  | nil => simp [storeInsert, storeFind]
  | cons e rest ih =>
    obtain ⟨k, w⟩ := e
    unfold storeInsert
    split
    · simp only [storeFind, ih]
      split <;> split <;> first | rfl | omega
    · split
      · subst_vars; simp only [storeFind]; split <;> rfl
      · simp only [storeFind]

theorem storeFind_erase (st : List (Nat × α)) (i j : Nat) :
    storeFind (storeErase st i) j = if i = j then none else storeFind st j := by
  induction st with
  | nil => simp [storeErase, storeFind]
  | cons e rest ih =>
    obtain ⟨k, w⟩ := e
    by_cases hk : k = i
    · simp only [storeErase, List.filter, hk, bne_self_eq_false] at ih ⊢
      rw [ih]; simp only [storeFind]
      split <;> simp_all
    · simp only [storeErase, List.filter, bne_iff_ne.mpr hk] at ih ⊢
      simp only [storeFind, ih]
      split <;> split <;> first | rfl | omega

theorem readFreq_writeFreq (f : FreqStore) (c d : CharCode) (v : Freq) :
    readFreq (writeFreq f c v) d = if c = d then v else readFreq f d := by
  unfold readFreq writeFreq
  by_cases hv : v = 0
  · simp only [hv, if_true, storeFind_erase, BitVec.toNat_inj]; split <;> rfl
  · simp only [hv, if_false, storeFind_insert, BitVec.toNat_inj]; split <;> rfl

theorem readNode_writeNode (ns : NodeStore) (n m : Idx) (v : Node) :
    readNode (writeNode ns n v) m = if n = m then some v else readNode ns m := by
  simp only [readNode, writeNode, storeFind_insert, Fin.val_inj]

theorem readCode_writeCode (cs : CodeStore) (c d : CharCode) (p : Path) :
    readCode (writeCode cs c p) d = if c = d then some p else readCode cs d := by
  simp only [readCode, writeCode, storeFind_insert, BitVec.toNat_inj]

@[simp] theorem readFreq_nil (c : CharCode) : readFreq [] c = 0 := rfl
@[simp] theorem readNode_nil (n : Idx) : readNode [] n = none := rfl
@[simp] theorem readCode_nil (c : CharCode) : readCode [] c = none := rfl

/-! ### The canonical form -/

theorem risingFrom_mono {lo lo' : Nat} (h : lo' ≤ lo) {st : List (Nat × α)} (hst : risingFrom lo st = true) :
    risingFrom lo' st = true := by
  cases st with
  | nil => rfl
  | cons e rest =>
    simp only [risingFrom, Bool.and_eq_true, decide_eq_true_eq] at hst ⊢
    exact ⟨le_trans h hst.1, hst.2⟩

theorem risingFrom_insert {lo i : Nat} {st : List (Nat × α)} {v : α} (hi : lo ≤ i)
    (hst : risingFrom lo st = true) : risingFrom lo (storeInsert st i v) = true := by
  induction st generalizing lo with
  | nil => simp [storeInsert, risingFrom, hi]
  | cons e rest ih =>
    obtain ⟨k, w⟩ := e
    simp only [risingFrom, Bool.and_eq_true, decide_eq_true_eq] at hst
    unfold storeInsert
    split
    · simp only [risingFrom, Bool.and_eq_true, decide_eq_true_eq]
      exact ⟨hst.1, ih (by omega) hst.2⟩
    · split
      · subst_vars; simp only [risingFrom, Bool.and_eq_true, decide_eq_true_eq]; exact ⟨hi, hst.2⟩
      · simp only [risingFrom, Bool.and_eq_true, decide_eq_true_eq]
        exact ⟨hi, by omega, hst.2⟩

theorem risingFrom_filter {lo : Nat} {st : List (Nat × α)} (p : Nat × α → Bool) (hst : risingFrom lo st = true) :
    risingFrom lo (st.filter p) = true := by
  induction st generalizing lo with
  | nil => rfl
  | cons e rest ih =>
    simp only [risingFrom, Bool.and_eq_true, decide_eq_true_eq] at hst
    simp only [List.filter]
    split
    · simp only [risingFrom, Bool.and_eq_true, decide_eq_true_eq]; exact ⟨hst.1, ih hst.2⟩
    · exact risingFrom_mono (by omega) (ih hst.2)

theorem mem_insert {st : List (Nat × α)} {i : Nat} {v : α} {e : Nat × α} (h : e ∈ storeInsert st i v) :
    e = (i, v) ∨ e ∈ st := by
  induction st with
  | nil => simpa [storeInsert] using h
  | cons e' rest ih =>
    obtain ⟨k, w⟩ := e'
    unfold storeInsert at h
    split at h
    · rcases List.mem_cons.mp h with h | h
      · exact .inr (h ▸ List.mem_cons_self ..)
      · exact (ih h).imp_right (List.mem_cons_of_mem _)
    · split at h
      · exact (List.mem_cons.mp h).imp_right (List.mem_cons_of_mem _)
      · exact List.mem_cons.mp h

theorem indicesBelow_insert {size i : Nat} {st : List (Nat × α)} {v : α} (hi : i < size)
    (hst : indicesBelow size st = true) : indicesBelow size (storeInsert st i v) = true := by
  simp only [indicesBelow, List.all_eq_true, decide_eq_true_eq] at hst ⊢
  intro e he
  rcases mem_insert he with rfl | h
  · exact hi
  · exact hst e h

theorem all_filter {st : List (Nat × α)} {p q : Nat × α → Bool} (hst : st.all p = true) :
    (st.filter q).all p = true := by
  simp only [List.all_eq_true, List.mem_filter] at hst ⊢
  exact fun e he => hst e he.1

/-- The canonical form of `FREQ` is kept by its one writing operation. -/
theorem freqWf_writeFreq {f : FreqStore} (c : CharCode) (v : Freq) (h : freqWf f = true) :
    freqWf (writeFreq f c v) = true := by
  simp only [freqWf, Bool.and_eq_true] at h ⊢
  unfold writeFreq
  split
  · exact ⟨⟨risingFrom_filter _ h.1.1, all_filter h.1.2⟩, all_filter h.2⟩
  · refine ⟨⟨risingFrom_insert (Nat.zero_le _) h.1.1, indicesBelow_insert c.isLt h.1.2⟩, ?_⟩
    rw [List.all_eq_true] at h ⊢
    intro e he
    rcases mem_insert he with rfl | he'
    · simpa using ‹¬ v = 0›
    · exact h.2 e he'

/-- The canonical form of `NODE` is kept by its one writing operation. -/
theorem nodeWf_writeNode {ns : NodeStore} (n : Idx) (v : Node) (h : nodeWf ns = true) :
    nodeWf (writeNode ns n v) = true := by
  simp only [nodeWf, Bool.and_eq_true] at h ⊢
  exact ⟨risingFrom_insert (Nat.zero_le _) h.1, indicesBelow_insert n.isLt h.2⟩

/-- The canonical form of `CODE` is kept by its one writing operation. -/
theorem codeWf_writeCode {cs : CodeStore} (c : CharCode) (p : Path) (h : codeWf cs = true) :
    codeWf (writeCode cs c p) = true := by
  simp only [codeWf, Bool.and_eq_true] at h ⊢
  exact ⟨risingFrom_insert (Nat.zero_le _) h.1, indicesBelow_insert c.isLt h.2⟩

/-- The reset stores have the canonical form. -/
theorem memoryWf_reset : Memory.wf State.reset.block = true := rfl

/-- In canonical form nothing is listed below the first index. -/
theorem storeFind_lt {lo i : Nat} {st : List (Nat × α)} (h : risingFrom lo st = true) (hi : i < lo) :
    storeFind st i = none := by
  induction st generalizing lo with
  | nil => rfl
  | cons e rest ih =>
    obtain ⟨k, w⟩ := e
    simp only [risingFrom, Bool.and_eq_true, decide_eq_true_eq] at h
    simp only [storeFind]
    rw [if_neg (by omega)]
    exact ih h.2 (by omega)

/-- A canonical list is known from what is read from it. -/
theorem store_ext {lo : Nat} {st st' : List (Nat × α)} (h : risingFrom lo st = true) (h' : risingFrom lo st' = true)
    (heq : ∀ i, storeFind st i = storeFind st' i) : st = st' := by
  induction st generalizing lo st' with
  | nil =>
    cases st' with
    | nil => rfl
    | cons e rest => have := heq e.1; simp [storeFind] at this
  | cons e rest ih =>
    obtain ⟨k, w⟩ := e
    cases st' with
    | nil => have := heq k; simp [storeFind] at this
    | cons e' rest' =>
      obtain ⟨k', w'⟩ := e'
      simp only [risingFrom, Bool.and_eq_true, decide_eq_true_eq] at h h'
      have hk : k = k' := by
        rcases Nat.lt_trichotomy k k' with hlt | heq' | hlt
        · have := heq k
          simp only [storeFind, if_true] at this
          rw [if_neg (by omega), storeFind_lt h'.2 (by omega)] at this
          cases this
        · exact heq'
        · have := heq k'
          simp only [storeFind, if_true] at this
          rw [if_neg (by omega), storeFind_lt h.2 (by omega)] at this
          cases this
      subst hk
      have hw : w = w' := by have := heq k; simpa [storeFind] using this
      subst hw
      rw [ih h.2 h'.2 (fun i => ?_)]
      by_cases hi : k = i
      · subst hi; rw [storeFind_lt h.2 (by omega), storeFind_lt h'.2 (by omega)]
      · have := heq i; simpa [storeFind, hi] using this

end Sys2Proof.Machine
end

