-- ==== Sys2Proof/Laws/Ops.lean ====
section
/-! SUPPORT. What a command and a step can do, said once: the inversion lemmas of the shared operations, of `exec` and
of `step`. -/

namespace Sys2Proof.Machine

/-! ### Shared operations -/

theorem whenAllowed_of_allowed {i : Instr} {s : State} (rule : Result) (h : allowed i s.block.phase = true) :
    whenAllowed i s rule = rule := by simp [whenAllowed, h]

theorem whenAllowed_of_not_allowed {i : Instr} {s : State} (rule : Result) (h : allowed i s.block.phase = false) :
    whenAllowed i s rule = .next (raiseErr .seq (cmdOf i) s) := by simp [whenAllowed, h]

theorem whenIndexOk_of_ok {i : Instr} {n : NodeField} {s : State} (rule : Result) (h : nodeFieldOk n = true) :
    whenIndexOk i n s rule = rule := by simp [whenIndexOk, h]

theorem whenIndexOk_of_not_ok {i : Instr} {n : NodeField} {s : State} (rule : Result) (h : nodeFieldOk n = false) :
    whenIndexOk i n s rule = .next (raiseErr .illegal (cmdOf i) s) := by simp [whenIndexOk, h]

/-- A node-index field in range selects the slot of its number. -/
theorem nodeAt_of_toNat_eq {b : Block} {n : NodeField} {k : Idx} (h : n.toNat = k.val) :
    nodeAt b n = readNode b.node k := by
  have hlt : n.toNat < 511 := h ▸ k.isLt
  have hk : (⟨n.toNat, hlt⟩ : Idx) = k := Fin.ext h
  simp [nodeAt, slotOf, hlt, hk]

theorem nodeFieldOk_of_toNat_eq {n : NodeField} {k : Idx} (h : n.toNat = k.val) : nodeFieldOk n = true := by
  have := k.isLt
  simp only [nodeFieldOk, decide_eq_true_eq]
  omega

/-- `GEN` after the phase check goes on exactly with a code table. -/
theorem finishGen_eq_next {codes : Except Fault CodeStore} {s t : State} :
    finishGen codes s = .next t ↔ ∃ cs, codes = .ok cs ∧ t = respondOk 0 (onBlock (genBlock cs) s) := by
  cases codes with
  | error e => simp [finishGen]
  | ok cs => simp [finishGen, eq_comm]

/-! ### One command -/

/-- The block a command leaves when it ends OK. -/
def okBlock : Instr → Block → Block → Prop
  | .clear, _, b' => b' = Block.reset
  | .clrerr, b, b' => b' = clearErrors b
  | .wfreq c v, b, b' => b' = wfreqBlock c v b
  | .rfreq _, b, b' => b' = b
  | .build, b, b' => b' = buildBlock b
  | .gen, b, b' => ∃ cs, genCodes b.node b.nleaf b.root = .ok cs ∧ b' = genBlock cs b
  | .rstat, b, b' => b' = b
  | .rroot, b, b' => b' = b
  | .rnode _, b, b' => b' = b
  | .rnfl _, b, b' => b' = b
  | .rnfh _, b, b' => b' = b
  | .rclen _, b, b' => b' = b
  | .rcbits _ _, b, b' => b' = b
  | .rerr, b, b' => b' = b

/-- The word a command answers when it ends OK. -/
def okWord : Instr → Block → Word
  | .clear, _ => 0
  | .clrerr, _ => 0
  | .wfreq _ _, _ => 0
  | .rfreq c, b => readFreq b.freq c
  | .build, _ => 0
  | .gen, _ => 0
  | .rstat, b => statusWord b
  | .rroot, b => rootWord b
  | .rnode n, b => ninfo (nodeAt b n)
  | .rnfl n, b => nfl (nodeAt b n)
  | .rnfh n, b => nfh (nodeAt b n)
  | .rclen c, b => clenw (readCode b.code c)
  | .rcbits c w, b => cbitsw (readCode b.code c) w
  | .rerr, b => errWord b

/-- Every way a command can go on: its index does not exist and it raises ILLEGAL; its phase does not allow it and it
raises SEQ; or it ends OK with the block and the word of its rule. -/
theorem exec_next_cases {i : Instr} {s t : State} (h : exec i s = .next t) :
    (i.wellFormed = false ∧ t = raiseErr .illegal (cmdOf i) s) ∨
    (i.wellFormed = true ∧ allowed i s.block.phase = false ∧ t = raiseErr .seq (cmdOf i) s) ∨
    (i.wellFormed = true ∧ allowed i s.block.phase = true ∧
      ∃ b, okBlock i s.block b ∧ t = respondOk (okWord i s.block) { s with block := b }) := by
  cases i
  case gen =>
    simp only [exec, execGen, whenAllowed] at h
    split at h
    · obtain ⟨cs, hcs, rfl⟩ := finishGen_eq_next.mp h
      exact .inr (.inr ⟨rfl, ‹_›, _, ⟨cs, hcs, rfl⟩, rfl⟩)
    · cases h
      exact .inr (.inl ⟨rfl, by simp_all, rfl⟩)
  case rnode n | rnfl n | rnfh n =>
    simp only [exec, execRnode, execRnfl, execRnfh, whenIndexOk, whenAllowed] at h
    split at h
    · split at h
      · cases h
        exact .inr (.inr ⟨‹_›, ‹_›, s.block, rfl, rfl⟩)
      · cases h
        exact .inr (.inl ⟨‹_›, by simp_all, rfl⟩)
    · cases h
      exact .inl ⟨Bool.eq_false_iff.mpr ‹¬ _›, rfl⟩
  all_goals
    simp only [exec, execClear, execClrerr, execWfreq, execRfreq, execBuild, execRstat, execRroot, execRclen,
      execRcbits, execRerr, whenAllowed] at h
    split at h
    · cases h
      exact .inr (.inr ⟨rfl, ‹_›, _, rfl, rfl⟩)
    · cases h
      exact .inr (.inl ⟨rfl, by simp_all, rfl⟩)

/-- A command stops only by `GEN`'s traversal, in a phase that allows it. -/
theorem exec_fault_cases {i : Instr} {s : State} {e : Fault} (h : exec i s = .fault e) :
    i = .gen ∧ allowed .gen s.block.phase = true ∧ genCodes s.block.node s.block.nleaf s.block.root = .error e := by
  cases i
  case gen =>
    simp only [exec, execGen, whenAllowed] at h
    split at h
    · refine ⟨rfl, ‹_›, ?_⟩
      unfold finishGen at h
      split at h <;> simp_all
    · cases h
  all_goals
    simp only [exec, execClear, execClrerr, execWfreq, execRfreq, execBuild, execRstat, execRroot, execRnode, execRnfl,
      execRnfh, execRclen, execRcbits, execRerr, whenAllowed, whenIndexOk] at h
    repeat (split at h)
    all_goals cases h

/-- No command is refused. -/
theorem exec_not_refused {i : Instr} {s : State} {r : Refusal} : exec i s ≠ .refused r := by
  intro h
  cases i
  case gen =>
    simp only [exec, execGen, whenAllowed, finishGen] at h
    repeat (split at h)
    all_goals cases h
  all_goals
    simp only [exec, execClear, execClrerr, execWfreq, execRfreq, execBuild, execRstat, execRroot, execRnode, execRnfl,
      execRnfh, execRclen, execRcbits, execRerr, whenAllowed, whenIndexOk] at h
    repeat (split at h)
    all_goals cases h

/-- A command leaves what the host has still to send. -/
theorem exec_pending {i : Instr} {s t : State} (h : exec i s = .next t) : t.pending = s.pending := by
  rcases exec_next_cases h with ⟨-, rfl⟩ | ⟨-, -, rfl⟩ | ⟨-, -, b, -, rfl⟩ <;> rfl

/-! ### One step -/

theorem step_of_nothing_pending {s : State} (h : s.pending = []) : step s = .next (waitForEvent s) := by
  simp [step, takeEvent, h]

theorem step_of_reset {s : State} {es : List Event} (h : s.pending = .reset :: es) :
    step s = .next (applyReset { s with pending := es }) := by
  simp [step, takeEvent, h]

theorem step_of_command {s : State} {cmd : CmdWord} {din : Word} {es : List Event}
    (h : s.pending = .command cmd din :: es) : step s = stepCommand cmd din { s with pending := es } := by
  simp [step, takeEvent, h]

/-- Every way a step can go on. -/
theorem step_next_cases {s t : State} (h : step s = .next t) :
    (s.pending = [] ∧ t = s) ∨
    (∃ es, s.pending = .reset :: es ∧ t = applyReset { s with pending := es }) ∨
    (∃ cmd din es, s.pending = .command cmd din :: es ∧
      ((∃ e, decode cmd din = .error e ∧ t = raiseErr .illegal cmd { s with pending := es }) ∨
       (∃ i, decode cmd din = .ok i ∧ exec i { s with pending := es } = .next t))) := by
  match hp : s.pending with
  | [] =>
    rw [step_of_nothing_pending hp] at h
    cases h
    exact .inl ⟨rfl, rfl⟩
  | .reset :: es =>
    rw [step_of_reset hp] at h
    cases h
    exact .inr (.inl ⟨es, rfl, rfl⟩)
  | .command cmd din :: es =>
    rw [step_of_command hp] at h
    refine .inr (.inr ⟨cmd, din, es, rfl, ?_⟩)
    unfold stepCommand at h
    split at h
    · exact .inr ⟨_, ‹_›, h⟩
    · cases h
      exact .inl ⟨_, ‹_›, rfl⟩

end Sys2Proof.Machine
end

