-- ==== Sys2Proof/Laws/Build.lean ====
section
/-! SUPPORT. What the pieces of `BUILD` do, said once: selection, INIT, one combination, and the induction over the
loop. -/

namespace Sys2Proof.Machine

/-! ### Selection -/

theorem takeLeast_eq_none {w : List Entry} : takeLeast w = none ↔ w = [] := by
  cases w with
  | nil => simp [takeLeast]
  | cons x xs =>
    simp only [takeLeast, reduceCtorEq, iff_false]
    split
    · simp
    · split <;> simp

/-- Selection takes one element out and leaves the others. -/
theorem takeLeast_perm {w : List Entry} {m : Entry} {rest : List Entry} (h : takeLeast w = some (m, rest)) :
    w.Perm (m :: rest) := by
  induction w generalizing m rest with
  | nil => cases h
  | cons x xs ih =>
    simp only [takeLeast] at h
    split at h
    · cases h
      simp [takeLeast_eq_none.mp ‹_›]
    · have hp := ih ‹_›
      split at h <;> cases h
      · exact hp.cons x
      · exact (hp.cons x).trans (.swap ..)

theorem takeLeast_length {w : List Entry} {m : Entry} {rest : List Entry} (h : takeLeast w = some (m, rest)) :
    w.length = rest.length + 1 := by simpa using (takeLeast_perm h).length_eq

/-! ### INIT -/

theorem mem_allChars (c : CharCode) : c ∈ allChars :=
  List.mem_map.mpr ⟨c.toNat, List.mem_range.mpr c.isLt, by simp⟩

theorem allChars_nodup : allChars.Nodup := by
  refine List.Nodup.map_on ?_ List.nodup_range
  intro a ha b hb h
  have h' := congrArg BitVec.toNat h
  simp only [BitVec.toNat_ofNat] at h'
  rw [List.mem_range, Config.nchar] at ha hb
  omega

@[simp] theorem leafSlot_val (c : CharCode) : (leafSlot c).val = c.toNat := rfl

@[simp] theorem leafSlot_inj {c d : CharCode} : leafSlot c = leafSlot d ↔ c = d := by
  simp [Fin.ext_iff, BitVec.toNat_inj]

@[simp] theorem initChar_next (f : FreqStore) (w : Work) (c : CharCode) : (initChar f w c).next = w.next := by
  unfold initChar; split <;> rfl

theorem initFold_next (f : FreqStore) (cs : List CharCode) (w : Work) :
    (cs.foldl (initChar f) w).next = w.next := by
  induction cs generalizing w with
  | nil => rfl
  | cons c cs ih => rw [List.foldl_cons, ih, initChar_next]

/-- INIT leaves `NEXT` at 256. -/
theorem initWork_next (f : FreqStore) : (initWork f).next = 256 := initFold_next f _ _

theorem initFold_queue (f : FreqStore) (cs : List CharCode) (w : Work) :
    (cs.foldl (initChar f) w).queue =
      ((cs.filter (fun c => readFreq f c != 0)).map
        (fun c => { slot := leafSlot c, node := leafNode c (readFreq f c) : Entry })).reverse ++ w.queue := by
  induction cs generalizing w with
  | nil => rfl
  | cons c cs ih =>
    rw [List.foldl_cons, ih]
    by_cases hc : readFreq f c = 0
    · simp [initChar, hc]
    · have hne : (readFreq f c != 0) = true := bne_iff_ne.mpr hc
      rw [initChar, if_neg hc, List.filter_cons, if_pos hne]
      simp

/-- After INIT the working set holds one leaf for each character that occurs. -/
theorem initWork_queue (f : FreqStore) :
    (initWork f).queue = ((allChars.filter (fun c => readFreq f c != 0)).map
      (fun c => { slot := leafSlot c, node := leafNode c (readFreq f c) : Entry })).reverse := by
  rw [initWork, initFold_queue, List.append_nil]

theorem presentCount_le (f : FreqStore) : presentCount f ≤ 256 :=
  (List.length_filter_le _ _).trans (by simp [allChars, Config.nchar])

theorem initWork_queue_length (f : FreqStore) : (initWork f).queue.length = presentCount f := by
  simp [initWork_queue, presentCount]

/-- `NLEAF` is the number of characters that occur (10_state.md R27). -/
theorem leafCount_initWork (f : FreqStore) : (leafCount (initWork f)).toNat = presentCount f := by
  have := presentCount_le f
  simp only [leafCount, initWork_queue_length, BitVec.toNat_ofNat]
  omega

theorem initFold_readNode (f : FreqStore) (cs : List CharCode) (w : Work) (n : Idx) :
    readNode (cs.foldl (initChar f) w).node n =
      if n.val < 256 then
        if BitVec.ofNat 8 n.val ∈ cs ∧ readFreq f (BitVec.ofNat 8 n.val) ≠ 0 then
          some (leafNode (BitVec.ofNat 8 n.val) (readFreq f (BitVec.ofNat 8 n.val)))
        else readNode w.node n
      else readNode w.node n := by
  induction cs generalizing w with
  | nil => simp
  | cons c cs ih =>
    rw [List.foldl_cons, ih]
    have hslot : leafSlot c = n ↔ n.val < 256 ∧ BitVec.ofNat 8 n.val = c := by
      constructor
      · rintro rfl
        exact ⟨c.isLt, by simp⟩
      · rintro ⟨h, rfl⟩
        exact Fin.ext (by simpa using h)
    by_cases hc : readFreq f c = 0
    · simp only [initChar, hc, if_true]
      split
      · by_cases hcn : BitVec.ofNat 8 n.val = c
        · simp [hcn, hc]
        · simp [hcn]
      · rfl
    · simp only [initChar, hc, if_false, readNode_writeNode, hslot]
      split
      · by_cases hcn : BitVec.ofNat 8 n.val = c
        · simp only [hcn, ‹n.val < 256›, hc, List.mem_cons_self, ne_eq, not_false_eq_true, and_self, if_true, ite_self]
        · simp [hcn]
      · simp [‹¬ n.val < 256›]

/-- After INIT the slot of a character holds its leaf when it occurs and nothing otherwise. -/
theorem initWork_leaf (f : FreqStore) (c : CharCode) :
    readNode (initWork f).node (leafSlot c) =
      if readFreq f c = 0 then none else some (leafNode c (readFreq f c)) := by
  have hlt : (leafSlot c).val < 256 := c.isLt
  rw [initWork, initFold_readNode, if_pos hlt]
  by_cases hc : readFreq f c = 0 <;> simp [hc, mem_allChars]

/-- After INIT no slot from 256 on holds a node. -/
theorem initWork_internal (f : FreqStore) (n : Idx) (h : 256 ≤ n.val) : readNode (initWork f).node n = none := by
  rw [initWork, initFold_readNode, if_neg (by omega)]
  rfl

/-! ### One combination and the loop -/

/-- One pass takes the least node and the least of the rest, and puts their combination into slot `NEXT`. -/
theorem combineOnce_eq_some {w w' : Work} (h : combineOnce w = some w') :
    ∃ a b rest rest', ∃ hn : w.next < 511,
      takeLeast w.queue = some (a, rest) ∧ takeLeast rest = some (b, rest') ∧
      w' = { queue := { slot := ⟨w.next, hn⟩, node := combineNodes a b } :: rest'
             node := writeNode w.node ⟨w.next, hn⟩ (combineNodes a b)
             next := w.next + 1 } := by
  unfold combineOnce at h
  split at h
  · cases h
  · split at h
    · cases h
    · unfold combinePair at h
      split at h
      · cases h
        exact ⟨_, _, _, _, ‹_›, ‹_›, ‹_›, rfl⟩
      · cases h

/-- A pass is made exactly when two nodes are left and a slot is free. -/
theorem combineOnce_eq_none {w : Work} : combineOnce w = none ↔ w.queue.length < 2 ∨ 511 ≤ w.next := by
  unfold combineOnce
  split
  · simp [takeLeast_eq_none.mp ‹_›]
  · have h1 := takeLeast_length ‹_›
    split
    · simp only [takeLeast_eq_none.mp ‹_›, List.length_nil] at h1
      simp [h1]
    · have h2 := takeLeast_length ‹_›
      unfold combinePair
      split <;> simp <;> omega

/-- The induction over the loop: what every pass keeps, the loop keeps. -/
theorem combineLoop_keeps {P : Work → Prop} (hstep : ∀ w w', P w → combineOnce w = some w' → P w')
    (fuel : Nat) (w : Work) (hw : P w) : P (combineLoop fuel w) := by
  induction fuel generalizing w with
  | zero => exact hw
  | succ fuel ih =>
    simp only [combineLoop]
    split
    · exact hw
    · exact ih _ (hstep _ _ hw ‹_›)

theorem initFold_nodeWf (f : FreqStore) (cs : List CharCode) (w : Work) (h : nodeWf w.node = true) :
    nodeWf (cs.foldl (initChar f) w).node = true := by
  induction cs generalizing w with
  | nil => exact h
  | cons c cs ih =>
    refine ih _ ?_
    unfold initChar
    split
    · exact h
    · exact nodeWf_writeNode _ _ h

/-- The node store that `BUILD` leaves is in canonical form. -/
theorem nodeWf_buildTree (f : FreqStore) : nodeWf (buildTree f).node = true := by
  refine combineLoop_keeps (P := fun w => nodeWf w.node = true) ?_ _ _ (initFold_nodeWf f _ _ rfl)
  intro w w' hw h
  obtain ⟨a, b, rest, rest', hn, -, -, rfl⟩ := combineOnce_eq_some h
  exact nodeWf_writeNode _ _ hw

end Sys2Proof.Machine
end

