-- ==== Sys2Proof/Laws/Gen.lean ====
section
/-! SUPPORT. What the traversal of `GEN` does, said once. -/

namespace Sys2Proof.Machine

theorem visit_leaf {ns : NodeStore} {n : Idx} {rep : CharCode} {fr : FreqSum} (h : readNode ns n = some (.leaf rep fr))
    (fuel : Nat) (p : Path) (cs : CodeStore) : visit ns (fuel + 1) n p cs = .ok (writeCode cs rep p) := by
  simp [visit, h]

/-- At an internal node the traversal goes on exactly through its left child and then its right child. -/
theorem visit_internal_eq_ok {ns : NodeStore} {n l r : Idx} {rep : CharCode} {fr : FreqSum}
    (h : readNode ns n = some (.internal rep fr l r)) {fuel : Nat} {p : Path} {cs cs' : CodeStore} :
    visit ns (fuel + 1) n p cs = .ok cs' ↔
      ∃ mid, visit ns fuel l (p ++ [false]) cs = .ok mid ∧ visit ns fuel r (p ++ [true]) mid = .ok cs' := by
  simp only [visit, h]
  split
  · simp [*]
  · simp [*]

/-- What writing one code keeps, the traversal keeps. -/
theorem visit_keeps {P : CodeStore → Prop} (hwrite : ∀ cs c p, P cs → P (writeCode cs c p)) {ns : NodeStore}
    {fuel : Nat} {n : Idx} {p : Path} {cs cs' : CodeStore} (hcs : P cs) (h : visit ns fuel n p cs = .ok cs') :
    P cs' := by
  induction fuel generalizing n p cs cs' with
  | zero => cases h
  | succ fuel ih =>
    match hn : readNode ns n with
    | none => simp [visit, hn] at h
    | some (.leaf rep fr) =>
      rw [visit_leaf hn] at h
      cases h
      exact hwrite _ _ _ hcs
    | some (.internal rep fr l r) =>
      obtain ⟨mid, h1, h2⟩ := (visit_internal_eq_ok hn).mp h
      exact ih (ih hcs h1) h2

/-- The code store that `GEN` leaves is in canonical form. -/
theorem codeWf_genCodes {ns : NodeStore} {k : BitVec 9} {root : Idx} {cs : CodeStore}
    (h : genCodes ns k root = .ok cs) : codeWf cs = true := by
  unfold genCodes at h
  split at h
  · exact visit_keeps (P := fun cs => codeWf cs = true) (fun _ _ _ hw => codeWf_writeCode _ _ hw) rfl h
  · cases h; rfl

/-- The traversal with more fuel gives the same codes. -/
theorem visit_more_fuel {ns : NodeStore} {fuel : Nat} {n : Idx} {p : Path} {cs cs' : CodeStore}
    (h : visit ns fuel n p cs = .ok cs') (k : Nat) : visit ns (fuel + k) n p cs = .ok cs' := by
  induction fuel generalizing n p cs cs' with
  | zero => cases h
  | succ fuel ih =>
    rw [Nat.succ_add]
    match hn : readNode ns n with
    | none => simp [visit, hn] at h
    | some (.leaf rep fr) => rw [visit_leaf hn] at h ⊢; exact h
    | some (.internal rep fr l r) =>
      obtain ⟨mid, h1, h2⟩ := (visit_internal_eq_ok hn).mp h
      exact (visit_internal_eq_ok hn).mpr ⟨mid, ih h1, ih h2⟩

end Sys2Proof.Machine
end

