-- ==== Sys2Proof/Laws/PerInstr.lean ====
section
/-! SUPPORT. The family `Row`: the word of every command matches its row of the opcode table, mask and match of
30_encoding.md R86 (spec/opcode_table.json), and no other row. -/

namespace Sys2Proof.Laws.Row

/-- The `mask` column of R86. -/
def mask : Instr → CmdWord
  | .clear => 0xFFFF
  | .clrerr => 0xFFFF
  | .wfreq _ _ => 0xFF00
  | .rfreq _ => 0xFF00
  | .build => 0xFFFF
  | .gen => 0xFFFF
  | .rstat => 0xFFFF
  | .rroot => 0xFFFF
  | .rnode _ => 0xFE00
  | .rnfl _ => 0xFE00
  | .rnfh _ => 0xFE00
  | .rclen _ => 0xFF00
  | .rcbits _ _ => 0xF800
  | .rerr => 0xFFFF

/-- The `match` column of R86. -/
def pattern : Instr → CmdWord
  | .clear => 0x1000
  | .clrerr => 0x2000
  | .wfreq _ _ => 0x3000
  | .rfreq _ => 0x4000
  | .build => 0x5000
  | .gen => 0x6000
  | .rstat => 0x7000
  | .rroot => 0x8000
  | .rnode _ => 0x9000
  | .rnfl _ => 0xA000
  | .rnfh _ => 0xB000
  | .rclen _ => 0xC000
  | .rcbits _ _ => 0xD000
  | .rerr => 0xE000

/-- The command's word, masked, is the row's pattern, and its opcode field is the row's opcode. -/
def Statement (i : Instr) : Prop := cmdOf i &&& mask i = pattern i ∧ opField (cmdOf i) = i.op

theorem wordC_row (op : BitVec 4) (c : CharCode) :
    wordC op c &&& 0xFF00 = wordN op ∧ opField (wordC op c) = op := by
  constructor <;> ext i hi
  · have h : ∀ j < 16, (0xFF00#16).getLsbD j = decide (8 ≤ j) := by decide
    simp [wordC, wordN, ← BitVec.getLsbD_eq_getElem, h i hi]
    by_cases h8 : 8 ≤ i <;> simp [h8]
    intro; omega
  · simp [wordC, opField, ← BitVec.getLsbD_eq_getElem, hi, show i < 16 by omega, show 12 + i < 16 by omega,
      BitVec.getLsbD_of_ge c (12 + i) (by omega)]

theorem wordX_row (op : BitVec 4) (n : NodeField) :
    wordX op n &&& 0xFE00 = wordN op ∧ opField (wordX op n) = op := by
  constructor <;> ext i hi
  · have h : ∀ j < 16, (0xFE00#16).getLsbD j = decide (9 ≤ j) := by decide
    simp [wordX, wordN, ← BitVec.getLsbD_eq_getElem, h i hi]
    by_cases h9 : 9 ≤ i <;> simp [h9]
    intro; omega
  · simp [wordX, opField, ← BitVec.getLsbD_eq_getElem, hi, show i < 16 by omega, show 12 + i < 16 by omega,
      BitVec.getLsbD_of_ge n (12 + i) (by omega)]

theorem wordW_row (op : BitVec 4) (c : CharCode) (w : WordSel) :
    wordW op c w &&& 0xF800 = wordN op ∧ opField (wordW op c w) = op := by
  constructor <;> ext i hi
  · have h : ∀ j < 16, (0xF800#16).getLsbD j = decide (11 ≤ j) := by decide
    simp [wordW, wordN, ← BitVec.getLsbD_eq_getElem, h i hi]
    by_cases h11 : 11 ≤ i
    · simp [h11, BitVec.getLsbD_of_ge c i (by omega), BitVec.getLsbD_of_ge w (i - 8) (by omega)]
    · simp [h11]; intro; omega
  · simp [wordW, opField, ← BitVec.getLsbD_eq_getElem, hi, show i < 16 by omega, show 12 + i < 16 by omega,
      BitVec.getLsbD_of_ge c (12 + i) (by omega), BitVec.getLsbD_of_ge w (12 + i - 8) (by omega)]

theorem clear : Statement (.clear) := ⟨by decide, by decide⟩

theorem clrerr : Statement (.clrerr) := ⟨by decide, by decide⟩

theorem wfreq (c : CharCode) (v : Word) : Statement (.wfreq c v) := wordC_row 0x3 c

theorem rfreq (c : CharCode) : Statement (.rfreq c) := wordC_row 0x4 c

theorem build : Statement (.build) := ⟨by decide, by decide⟩

theorem gen : Statement (.gen) := ⟨by decide, by decide⟩

theorem rstat : Statement (.rstat) := ⟨by decide, by decide⟩

theorem rroot : Statement (.rroot) := ⟨by decide, by decide⟩

theorem rnode (n : NodeField) : Statement (.rnode n) := wordX_row 0x9 n

theorem rnfl (n : NodeField) : Statement (.rnfl n) := wordX_row 0xA n

theorem rnfh (n : NodeField) : Statement (.rnfh n) := wordX_row 0xB n

theorem rclen (c : CharCode) : Statement (.rclen c) := wordC_row 0xC c

theorem rcbits (c : CharCode) (w : WordSel) : Statement (.rcbits c w) := wordW_row 0xD c w

theorem rerr : Statement (.rerr) := ⟨by decide, by decide⟩

end Sys2Proof.Laws.Row
end

