-- ==== Sys2Proof/Tests/Slice0.lean ====
section
/-! SUPPORT. The model's own tests, each one step or one function on a small state, with the source of its expected
result; and for every statement with hypotheses a witness that meets them. -/

namespace Sys2Proof.Machine.Tests

open Sys2Proof Sys2Proof.Machine

/-! ### Helpers -/

/-- The state a result goes on to. -/
def stateOf : Result → Option State
  | .next t => some t
  | .fault _ => none
  | .refused _ => none

/-- The block a result goes on to. -/
def blockOf (r : Result) : Option Block := (stateOf r).map (·.block)

/-- The last response of the state a result goes on to, as the numbers `(resp, dout)`. -/
def answerOf (r : Result) : Option (Nat × Nat) :=
  match stateOf r with
  | none => none
  | some t => t.responses.getLast?.map (fun a => (a.code.bits.toNat, a.dout.toNat))

/-- The state after reset with a frequency table loaded. -/
def loaded (f : FreqStore) : State := { State.reset with block := { Block.reset with freq := f } }

/-- One command sent to a state. -/
def sent (cmd : CmdWord) (din : Word) (s : State) : State := { s with pending := [.command cmd din] }

/-- The tree of 95_test_vectors.md S1 (P1 without its codes). -/
def s1Tree : State :=
  { State.reset with block :=
      { Block.reset with
        freq := [(97, 1), (98, 1)], phase := .tree, nleaf := 2, root := 256
        node := [(97, .leaf 97 1), (98, .leaf 98 1), (256, .internal 97 2 97 98)] } }

/-- The end state of 95_test_vectors.md P1. -/
def p1End : State :=
  { s1Tree with block := { s1Tree.block with phase := .codes, code := [(97, [false]), (98, [true])] } }

/-- The end state of 95_test_vectors.md P2, the single leaf. -/
def p2End : State :=
  { State.reset with block :=
      { Block.reset with
        freq := [(97, 4)], phase := .codes, nleaf := 1, root := 97, node := [(97, .leaf 97 4)]
        code := [(97, [])] } }

/-- The end state of 95_test_vectors.md P5, the empty table. -/
def p5End : State := { State.reset with block := { Block.reset with phase := .codes } }

/-- The tree of V14: two largest counts. -/
def v14Tree : State :=
  { State.reset with block :=
      { Block.reset with
        freq := [(0, 0xFFFFFFFF), (255, 0xFFFFFFFF)], phase := .tree, nleaf := 2, root := 256
        node := [(0, .leaf 0 0xFFFFFFFF), (255, .leaf 255 0xFFFFFFFF), (256, .internal 0 0x1FFFFFFFE 0 255)] } }

theorem inv_p1End : StateInv p1End where
  memory := by decide
  leaves := by decide
  tree := fun _ => by decide +kernel
  codes := fun _ => by decide +kernel
  errors := by unfold errorRecordOk; decide

theorem inv_p2End : StateInv p2End where
  memory := by decide
  leaves := by decide
  tree := fun _ => by decide +kernel
  codes := fun _ => by decide +kernel
  errors := by unfold errorRecordOk; decide

theorem inv_p5End : StateInv p5End where
  memory := by decide
  leaves := by decide
  tree := fun _ => by decide +kernel
  codes := fun _ => by decide +kernel
  errors := by unfold errorRecordOk; decide

/-! ### Well-formedness: the one check refuses its ill-formed terms (20_memory.md R62) -/

theorem test_wf_refuses_rnode_511 : (Instr.rnode 511).wellFormed = false := by decide
theorem test_wf_refuses_rnfl_511 : (Instr.rnfl 511).wellFormed = false := by decide
theorem test_wf_refuses_rnfh_511 : (Instr.rnfh 511).wellFormed = false := by decide
theorem test_wf_admits_rnode_510 : (Instr.rnode 510).wellFormed = true := by decide

/-! ### Decoding: words written out from 30_encoding.md R83, R86 (95_test_vectors.md V1, V2) -/

theorem test_decode_clear : decode 0b0001_0000_0000_0000 0 = .ok .clear := by decide
theorem test_decode_clrerr : decode 0b0010_0000_0000_0000 0 = .ok .clrerr := by decide
theorem test_decode_wfreq : decode 0b0011_0000_1111_1111 0xFFFFFFFF = .ok (.wfreq 255 0xFFFFFFFF) := by decide
theorem test_decode_rfreq : decode 0b0100_0000_0110_0001 9 = .ok (.rfreq 97) := by decide
theorem test_decode_build : decode 0b0101_0000_0000_0000 0 = .ok .build := by decide
theorem test_decode_gen : decode 0b0110_0000_0000_0000 0 = .ok .gen := by decide
theorem test_decode_rstat : decode 0b0111_0000_0000_0000 0xDEADBEEF = .ok .rstat := by decide
theorem test_decode_rroot : decode 0b1000_0000_0000_0000 0 = .ok .rroot := by decide
theorem test_decode_rnode : decode 0b1001_0001_0000_0000 0 = .ok (.rnode 256) := by decide
theorem test_decode_rnfl : decode 0b1010_0001_0000_0011 0 = .ok (.rnfl 259) := by decide
theorem test_decode_rnfh : decode 0b1011_0001_1111_1110 0 = .ok (.rnfh 510) := by decide
theorem test_decode_rclen : decode 0b1100_0000_0110_0110 0 = .ok (.rclen 102) := by decide
theorem test_decode_rcbits : decode 0b1101_0001_0110_0110 0 = .ok (.rcbits 102 1) := by decide
theorem test_decode_rerr : decode 0b1110_0000_0000_0000 0 = .ok .rerr := by decide
theorem test_decode_reserved : decode 0x0FFF 0 = .error .reservedOpcode ∧ decode 0xF000 0 = .error .reservedOpcode := by
  decide
theorem test_decode_must_be_zero : decode 0x5800 0 = .error .mustBeZero ∧ decode 0x3161 0 = .error .mustBeZero ∧
    decode 0x9200 0 = .error .mustBeZero ∧ decode 0xD800 0 = .error .mustBeZero := by decide
theorem test_decode_index_511 : decode 0x91FF 0 = .error .nodeIndex511 ∧ decode 0xB1FF 0 = .error .nodeIndex511 := by
  decide

/-! ### One command each, expected results from 95_test_vectors.md -/

/-- V24: from a state with a table, codes and an error record to the reset state. -/
theorem test_clear : blockOf (exec .clear { p1End with block := { p1End.block with errIll := true, ecmd := 0x3161 } }) =
    some Block.reset := by decide

/-- V22: the record goes, the table stays. -/
theorem test_clrerr : blockOf (exec .clrerr
    { p1End with block := { p1End.block with errIll := true, errSeq := true, ecmd := 0x2001, ecode := .illegal } }) =
    some p1End.block := by decide

/-- V5: the largest count at the last character. -/
theorem test_wfreq : blockOf (exec (.wfreq 255 0xFFFFFFFF) (loaded [(0, 7)])) =
    some { Block.reset with freq := [(0, 7), (255, 0xFFFFFFFF)] } := by decide

/-- V6: the same value still leaves phase CODES for LOAD; V5: writing 0 empties the entry. -/
theorem test_wfreq_invalidates : (blockOf (exec (.wfreq 97 1) p1End)).map (·.phase) = some .load ∧
    (blockOf (exec (.wfreq 0 0) (loaded [(0, 7)]))).map (·.freq) = some [] := by decide

/-- V5. -/
theorem test_rfreq : answerOf (exec (.rfreq 255) (loaded [(0, 7), (255, 0xFFFFFFFF)])) = some (0, 0xFFFFFFFF) ∧
    answerOf (exec (.rfreq 1) (loaded [(0, 7), (255, 0xFFFFFFFF)])) = some (0, 0) := by decide

/-- S1: the tie goes by character. -/
theorem test_build_tie : blockOf (exec .build (loaded [(97, 1), (98, 1)])) = some s1Tree.block := by decide +kernel

/-- V8: the left child has the larger character, and `rep` is the minimum, not the left child's. -/
theorem test_build_order : (blockOf (exec .build (loaded [(97, 2), (98, 1)]))).map (fun b => (b.node, b.root)) =
    some ([(97, .leaf 97 2), (98, .leaf 98 1), (256, .internal 97 3 98 97)], 256) := by decide +kernel

/-- P1: the codes of S1. -/
theorem test_gen : blockOf (exec .gen s1Tree) = some p1End.block := by decide +kernel

/-- V18: out of phase. -/
theorem test_gen_in_load : answerOf (exec .gen State.reset) = some (2, 0) ∧
    (blockOf (exec .gen State.reset)).map (fun b => (b.phase, b.errSeq, b.ecmd, b.ecode)) =
      some (.load, true, 0x6000, .seq) := by decide

/-- P1 and P2. -/
theorem test_rstat : answerOf (exec .rstat s1Tree) = some (0, 0x00020001) ∧
    answerOf (exec .rstat p2End) = some (0, 0x0001000A) := by decide

/-- P1 and P5. -/
theorem test_rroot : answerOf (exec .rroot s1Tree) = some (0, 0x00000300) ∧
    answerOf (exec .rroot p5End) = some (0, 0) := by decide

/-- P1: an internal node, a leaf, a slot without a node. -/
theorem test_rnode : answerOf (exec (.rnode 256) s1Tree) = some (0, 0x0D84C461) ∧
    answerOf (exec (.rnode 98) s1Tree) = some (0, 0x09880000) ∧ answerOf (exec (.rnode 99) s1Tree) = some (0, 0) := by
  decide

/-- P4: index 511 is illegal. -/
theorem test_rnode_511 : answerOf (step (sent 0x91FF 0 s1Tree)) = some (1, 0) := by decide

/-- V14. -/
theorem test_rnfl : answerOf (exec (.rnfl 256) v14Tree) = some (0, 0xFFFFFFFE) := by decide

/-- V14. -/
theorem test_rnfh : answerOf (exec (.rnfh 256) v14Tree) = some (0, 1) ∧ answerOf (exec (.rnfh 0) v14Tree) = some (0, 0) := by
  decide

/-- P1, P2: a code of length 1, the empty code, no code. -/
theorem test_rclen : answerOf (exec (.rclen 98) p1End) = some (0, 0x101) ∧
    answerOf (exec (.rclen 97) p2End) = some (0, 0x100) ∧ answerOf (exec (.rclen 98) p2End) = some (0, 0) := by decide

/-- 43_result_read.md R176 example: the path "0001" has bit 3 set; V16: position 30 of `CODE[1]` is bit 30. -/
theorem test_rcbits : cbitsw (some [false, false, false, true]) 0 = 0x00000008 ∧
    cbitsw (some (List.replicate 30 false ++ [true])) 0 = 0x40000000 := by decide +kernel

/-- V17: word 1 of 37 ones, a zero, a one. -/
theorem test_rcbits_word_1 : cbitsw (some (List.replicate 37 true ++ [false, true])) 1 = 0x0000005F := by decide +kernel

/-- V21: the record after an illegal word. -/
theorem test_rerr : answerOf (exec .rerr
    { State.reset with block := { Block.reset with errIll := true, ecmd := 0x6001, ecode := .illegal } }) =
    some (0, 0x00016001) := by decide

/-- V21: ILLEGAL before SEQ, and only its flag. -/
theorem test_illegal_before_seq : (blockOf (step (sent 0x6001 0 State.reset))).map (fun b => (b.errIll, b.errSeq, b.ecmd)) =
    some (true, false, 0x6001) := by decide

/-- R230: reset. -/
theorem test_reset_event : blockOf (step { p1End with pending := [.reset] }) = some Block.reset := by decide

/-- R94, V1: text to words. -/
theorem test_assemble : assemble "MKCODES ; comment\n RCBITS 'f', 0x1\n.word 0x91FF, 3".toList =
    .ok [(0x5000, 0), (0x6000, 0), (0xD166, 0), (0x91FF, 3)] := by decide +kernel

/-- 95_test_vectors.md P4: the rows `.word 0x0000` and `.word 0x6001` give the command word, with `din` 0. -/
theorem test_assemble_word_one_operand :
    assemble ".word 0x0000\n.word 0x6001".toList = .ok [(0x0000, 0), (0x6001, 0)] := by decide +kernel

/-- R94: the assembler refuses an operand out of range. -/
theorem test_assemble_refuses : parseLine "RNODE 511".toList = .error .outOfRange := by decide +kernel

/-! ### Witnesses: states and operands that meet the hypotheses of the statements -/

theorem witness_ResetEventMapsAnyBlockToTheResetBlock :
    ∃ (s : State) (es : List Event), s.pending = .reset :: es := ⟨{ p1End with pending := [.reset] }, [], rfl⟩

theorem witness_ClearLeavesExactlyTheResetBlock : ∃ (s s' t t' : State) (es : List Event),
    exec .clear s = .next t ∧ s'.pending = .reset :: es ∧ step s' = .next t' :=
  ⟨p1End, { p1End with pending := [.reset] }, _, _, [], rfl, rfl, rfl⟩

theorem witness_RerrAnswersTheFieldsOfErrw : ∃ s : State, StateInv s := ⟨p1End, inv_p1End⟩

theorem witness_WfreqWritesOneEntryAndInvalidates : ∃ c d : CharCode, d ≠ c := ⟨0, 255, by decide⟩

theorem witness_FrequencyTableChangesOnlyByItsWriters :
    (∃ t, exec (.wfreq 97 2) p1End = .next t) ∧ (∃ t, exec .clear p1End = .next t) ∧ (∃ t, exec .build p1End = .next t) ∧
    (∃ (s t : State) (es : List Event), s.pending = .reset :: es ∧ step s = .next t) ∧
    (∃ t, exec (.rfreq 97) p1End = .next t) :=
  ⟨⟨_, rfl⟩, ⟨_, rfl⟩, ⟨_, rfl⟩, ⟨{ p1End with pending := [.reset] }, _, [], rfl, rfl⟩, ⟨_, rfl⟩⟩

theorem witness_LdtabLoadsTheTable : ∃ (entries : List (CharCode × Word)) (s : State) (es : List Event)
    (T : CharCode → Freq), s.pending = sendLine (.ldtab entries) ++ es ∧ (∀ e ∈ entries, e.2 = T e.1) ∧
      (∀ c, T c ≠ 0 → ∃ e ∈ entries, e.1 = c) ∧ T 255 = 3 := by
  refine ⟨[(255, 3), (97, 2)], { p1End with pending := sendLine (.ldtab [(255, 3), (97, 2)]) ++ [.reset] }, [.reset],
    fun c => if c = 97 then 2 else if c = 255 then 3 else 0, rfl, ?_, ?_, rfl⟩
  · simp
  · intro c h
    by_cases h1 : c = 97
    · exact ⟨(97, 2), by simp, h1.symm⟩
    · by_cases h2 : c = 255
      · exact ⟨(255, 3), by simp, h2.symm⟩
      · exact absurd (if_neg h1 |>.trans (if_neg h2)) h

theorem witness_TreeAndCodesChangeOnlyByTheirWriters :
    ∃ (i : Instr) (s t : State), exec i s = .next t ∧ i ≠ .build ∧ i ≠ .gen ∧ i ≠ .clear :=
  ⟨.wfreq 97 2, p1End, _, rfl, by decide, by decide, by decide⟩

theorem witness_PhaseFollowsTheTableOfTheRule :
    (∃ t, exec .build p1End = .next t) ∧
    (∃ (s t : State) (cmd : CmdWord) (din : Word) (es : List Event) (e : DecodeError),
      s.pending = .command cmd din :: es ∧ decode cmd din = .error e ∧ step s = .next t) ∧
    (∃ (s t : State) (es : List Event), s.pending = .reset :: es ∧ step s = .next t) :=
  ⟨⟨_, rfl⟩, ⟨sent 0x91FF 0 p1End, _, 0x91FF, 0, [], .nodeIndex511, rfl, by decide, rfl⟩,
    ⟨{ p1End with pending := [.reset] }, _, [], rfl, rfl⟩⟩

theorem witness_ReadsThatEndOkChangeNothing : ∃ (i : Instr) (s : State),
    isRead i ∧ i.wellFormed = true ∧ allowed i s.block.phase = true :=
  ⟨.rnode 510, p1End, trivial, by decide, by decide⟩

theorem witness_ErrorsRecordTheCommandAndChangeNothingElse :
    (∃ (s : State) (cmd : CmdWord) (din : Word) (es : List Event) (e : DecodeError),
      s.pending = .command cmd din :: es ∧ decode cmd din = .error e) ∧
    (∃ (s : State) (cmd : CmdWord) (din : Word) (es : List Event) (i : Instr),
      s.pending = .command cmd din :: es ∧ decode cmd din = .ok i ∧ allowed i s.block.phase = false) :=
  ⟨⟨sent 0x6001 0 State.reset, 0x6001, 0, [], .mustBeZero, rfl, by decide⟩,
    ⟨sent 0x6000 0 State.reset, 0x6000, 0, [], .gen, rfl, by decide, by decide⟩⟩

theorem witness_SeqIsAnsweredExactlyOutOfPhase :
    (∃ (i : Instr) (s : State), i.wellFormed = true ∧ refusedIn i s.block.phase) ∧
    (∃ (i : Instr) (s t : State), i.wellFormed = true ∧ ¬ refusedIn i s.block.phase ∧ exec i s = .next t) :=
  ⟨⟨.rclen 97, s1Tree, rfl, by simp [refusedIn, s1Tree]⟩,
    ⟨.rnode 510, s1Tree, _, by decide, by simp [refusedIn, s1Tree], rfl⟩⟩

theorem witness_NodeIndex511IsIllegal : ∃ i : Instr, i = .rnode 511 ∨ i = .rnfl 511 ∨ i = .rnfh 511 :=
  ⟨.rnfh 511, .inr (.inr rfl)⟩

theorem witness_ErrorFlagsAreSticky :
    (∃ (s t : State) (cmd : CmdWord) (din : Word) (es : List Event), s.pending = .command cmd din :: es ∧
      step s = .next t ∧ decode cmd din ≠ .ok .clear ∧ decode cmd din ≠ .ok .clrerr ∧ s.block.errSeq = true) ∧
    (∃ s t : State, exec .clear s = .next t) ∧
    (∃ (s t : State) (es : List Event), s.pending = .reset :: es ∧ step s = .next t) :=
  ⟨⟨sent 0x7000 0 { p1End with block := { p1End.block with errSeq := true } }, _, 0x7000, 0, [], rfl, rfl,
      by decide, by decide, rfl⟩, ⟨p1End, _, rfl⟩, ⟨{ p1End with pending := [.reset] }, _, [], rfl, rfl⟩⟩

theorem witness_ErrorRecordInfluencesNoCommand : ∃ (i : Instr) (s s' t : State),
    sameButErrors s.block s'.block ∧ s.block ≠ s'.block ∧ exec i s = .next t ∧ i ≠ .rstat ∧ i ≠ .rerr :=
  ⟨.rnode 256, p1End, { p1End with block := { p1End.block with errSeq := true } }, _,
    ⟨rfl, rfl, rfl, rfl, rfl, rfl⟩, by decide, rfl, by decide, by decide⟩

theorem witness_OneResponsePerCommandInOrder :
    ∃ (s t : State) (cmd : CmdWord) (din : Word) (es : List Event) (i : Instr),
      s.pending = .command cmd din :: es ∧ step s = .next t ∧ decode cmd din = .ok i ∧ ¬ isRead i :=
  ⟨sent 0x3061 2 p1End, _, 0x3061, 2, [], .wfreq 97 2, rfl, rfl, by decide, id⟩

theorem witness_CommandWordsHoldTheirFieldsInPlace : ∃ i : Instr, i.format = .N := ⟨.rerr, rfl⟩

theorem witness_DecodeGivesBackEveryEncodedCommand : ∃ i : Instr, i.wellFormed = true := ⟨.rnode 510, by decide⟩

theorem witness_EncodeGivesBackEveryLegalWord : ∃ (cmd : CmdWord) (din : Word) (i : Instr),
    decode cmd din = .ok i ∧ opField cmd = 3 := ⟨0x30FF, 7, .wfreq 255 7, by decide, by decide⟩

theorem witness_IllegalWordsAreThoseOfTheRule : ∃ (cmd : CmdWord) (din : Word) (s : State) (es : List Event),
    s.pending = .command cmd din :: es := ⟨0x91FF, 0, sent 0x91FF 0 p1End, [], rfl⟩

theorem witness_DataInIsIgnoredExceptByWfreq : ∃ cmd : CmdWord, opField cmd ≠ 3 := ⟨0x7000, by decide⟩

theorem witness_StepRunsTheDecodedCommand :
    (∃ (s : State) (cmd : CmdWord) (din : Word) (es : List Event) (i : Instr),
      s.pending = .command cmd din :: es ∧ decode cmd din = .ok i) ∧ (∃ s : State, s.pending = []) :=
  ⟨⟨sent 0x6000 0 s1Tree, 0x6000, 0, [], .gen, rfl, by decide⟩, ⟨p1End, rfl⟩⟩

theorem witness_BuildDependsOnTheFrequenciesAlone : ∃ s s' t t' : State, s.block ≠ s'.block ∧
    (∀ c, readFreq s.block.freq c = readFreq s'.block.freq c) ∧ exec .build s = .next t ∧ exec .build s' = .next t' :=
  ⟨p1End, loaded [(97, 1), (98, 1)], _, _, by decide, fun _ => rfl, rfl, rfl⟩

theorem witness_ComparatorIsAStrictTotalOrder :
    (∃ a b c : Node, a.lt b = true ∧ b.lt c = true) ∧ (∃ a b : Node, a.rep ≠ b.rep) :=
  ⟨⟨.leaf 102 2, .internal 97 4 97 102, .leaf 98 4, by decide, by decide⟩, ⟨.leaf 97 1, .leaf 98 1, by decide⟩⟩

theorem witness_SelectionYieldsTheUniqueLeast : ∃ w : List Entry, w ≠ [] ∧ (w.map (fun e => e.node.rep)).Nodup :=
  ⟨[⟨98, .leaf 98 1⟩, ⟨97, .leaf 97 1⟩], by decide, by decide⟩

theorem witness_BuiltTreeHasTheShapeOfTheRule :
    (∃ n : Idx, 256 ≤ n.val) ∧
    (∃ (n : Idx) (rep : CharCode) (f : FreqSum) (l r : Idx),
      readNode (buildTree [(97, 1), (98, 1)]).node n = some (.internal rep f l r)) :=
  ⟨⟨510, by decide⟩, ⟨256, 97, 2, 97, 98, by decide +kernel⟩⟩

theorem witness_BuiltNodesHaveOneParentEach : ∃ n : Idx,
    (readNode (buildTree [(97, 1), (98, 1)]).node n).isSome ∧ n ≠ (buildTree [(97, 1), (98, 1)]).root :=
  ⟨97, by decide +kernel, by decide +kernel⟩

theorem witness_BuiltRootIsTheLastNode :
    (buildTree []).nleaf.toNat = 0 ∧ ((buildTree [(97, 4)]).nleaf.toNat = 1 ∧ readFreq [(97, 4)] 97 ≠ 0) ∧
    2 ≤ (buildTree [(97, 1), (98, 1)]).nleaf.toNat :=
  ⟨by decide +kernel, ⟨by decide +kernel, by decide⟩, by decide +kernel⟩

theorem witness_BuiltNodesCombineTheirChildren :
    ∃ (n : Idx) (rep : CharCode) (f : FreqSum) (l r : Idx),
      readNode (buildTree [(97, 2), (98, 1)]).node n = some (.internal rep f l r) :=
  ⟨256, 97, 3, 98, 97, by decide +kernel⟩

theorem witness_BuiltNodesSumTheLeavesBelow :
    (∃ (n : Idx) (v : Node), readNode (buildTree [(97, 2), (98, 1)]).node n = some v) ∧
    1 ≤ (buildTree [(97, 2), (98, 1)]).nleaf.toNat :=
  ⟨⟨256, .internal 97 3 98 97, by decide +kernel⟩, by decide +kernel⟩

theorem witness_EmptyTableGivesTheEmptyTree : ∃ s : State, (∀ c, readFreq s.block.freq c = 0) ∧
    s.block.errIll = false ∧ s.block.errSeq = false := ⟨State.reset, fun _ => rfl, rfl, rfl⟩

theorem witness_SingleEntryTableGivesOneLeaf : ∃ (s : State) (c : CharCode), readFreq s.block.freq c ≠ 0 ∧
    (∀ d, d ≠ c → readFreq s.block.freq d = 0) ∧ s.block.errIll = false ∧ s.block.errSeq = false := by
  refine ⟨loaded [(97, 4)], 97, by decide, fun d hd => ?_, rfl, rfl⟩
  have h : ¬ 97 = d.toNat := fun h => hd (BitVec.eq_of_toNat_eq h.symm)
  simp [loaded, readFreq, storeFind, h]

theorem witness_GenCompletesAndWritesTheCodesOnly : ∃ s : State, StateInv s ∧ s.block.phase ≠ .load :=
  ⟨p1End, inv_p1End, by decide⟩

theorem witness_RebuildingChangesNoResult : ∃ s t u : State, StateInv s ∧ s.block.phase = .codes ∧
    exec .build s = .next t ∧ exec .gen s = .next u :=
  ⟨p5End, _, _, inv_p5End, rfl, rfl, rfl⟩

theorem witness_CodesArePresentExactlyForCountedCharacters : ∃ s : State, StateInv s ∧ s.block.phase = .codes :=
  ⟨p2End, inv_p2End, rfl⟩

theorem witness_WalkingACodeEndsAtItsLeaf : ∃ (s : State) (c : CharCode) (p : Path),
    StateInv s ∧ s.block.phase = .codes ∧ readCode s.block.code c = some p := ⟨p1End, 98, [true], inv_p1End, rfl, rfl⟩

theorem witness_CodesArePrefixFree : ∃ (s : State) (c d : CharCode) (p q : Path), StateInv s ∧ s.block.phase = .codes ∧
    readCode s.block.code c = some p ∧ readCode s.block.code d = some q ∧ c ≠ d :=
  ⟨p1End, 97, 98, [false], [true], inv_p1End, rfl, rfl, rfl, by decide⟩

theorem witness_CodeLengthsAreBounded :
    (∃ (s : State) (c : CharCode) (p : Path), StateInv s ∧ s.block.phase = .codes ∧ readCode s.block.code c = some p ∧
      2 ≤ s.block.nleaf.toNat) ∧
    (∃ (s : State) (c : CharCode) (p : Path), StateInv s ∧ s.block.phase = .codes ∧ readCode s.block.code c = some p ∧
      s.block.nleaf.toNat = 1) :=
  ⟨⟨p1End, 98, [true], inv_p1End, rfl, rfl, by decide⟩, ⟨p2End, 97, [], inv_p2End, rfl, rfl, by decide⟩⟩

theorem witness_RrootAnswersTheFieldsOfRootw : ∃ s : State, s.block.phase ≠ .load ∧ StateInv s ∧
    (rootWord s.block).getLsbD 9 = false := ⟨p5End, by decide, inv_p5End, by decide⟩

theorem witness_RnodeAnswersTheFieldsOfNinfo : ∃ (s : State) (n n' n'' : NodeField) (k k' k'' : Idx),
    s.block.phase ≠ .load ∧ n.toNat = k.val ∧ n'.toNat = k'.val ∧ n''.toNat = k''.val ∧
    readNode s.block.node k = none ∧ readNode s.block.node k' = some (.leaf 98 1) ∧
    readNode s.block.node k'' = some (.internal 97 2 97 98) :=
  ⟨p1End, 510, 98, 256, 510, 98, 256, by decide⟩

theorem witness_RnflAndRnfhAnswerTheFrequency : ∃ (s : State) (n n' : NodeField) (k k' : Idx) (v : Node),
    s.block.phase ≠ .load ∧ n.toNat = k.val ∧ n'.toNat = k'.val ∧
    readNode s.block.node k = none ∧ readNode s.block.node k' = some v :=
  ⟨v14Tree, 510, 256, 510, 256, .internal 0 0x1FFFFFFFE 0 255, by decide⟩

theorem witness_RclenAnswersTheFieldsOfClenw :
    (∃ (s : State) (c : CharCode), s.block.phase = .codes ∧ readCode s.block.code c = none) ∧
    (∃ (s : State) (c : CharCode) (p : Path), s.block.phase = .codes ∧ readCode s.block.code c = some p ∧
      p.length = 255) :=
  ⟨⟨p1End, 99, rfl, rfl⟩, ⟨{ p1End with block := { p1End.block with code := [(0, List.replicate 255 true)] } },
    0, List.replicate 255 true, rfl, rfl, List.length_replicate ..⟩⟩

theorem witness_RcbitsAnswersTheSymbols :
    (∃ (s : State) (c : CharCode), s.block.phase = .codes ∧ readCode s.block.code c = none) ∧
    (∃ (s : State) (c : CharCode) (w : WordSel) (p : Path), s.block.phase = .codes ∧
      readCode s.block.code c = some p ∧ p.length ≤ 255 ∧ w = 7) ∧ (∃ j : Nat, j < 32) :=
  ⟨⟨p1End, 99, rfl, rfl⟩, ⟨p1End, 98, 7, [true], rfl, rfl, by decide, rfl⟩, ⟨31, by decide⟩⟩

theorem witness_RcodeReadsBackTheStoredCode : ∃ slot : Option Path, slot ≠ none ∧
    (∀ p, slot = some p → p.length ≤ 255) :=
  ⟨some (List.replicate 255 true), Option.some_ne_none _,
    fun p h => by cases h; exact (List.length_replicate ..).le⟩

theorem witness_AssemblerEmitsLegalWordsOnly : ∃ (text : List Char) (l : AsmLine),
    parseLine text = .ok (some l) ∧ (∀ x v, l ≠ .raw x v) ∧ emitLine l ≠ [] :=
  ⟨['G', 'E', 'N'], .command .gen, by decide +kernel, by simp, by decide⟩

theorem witness_StepKeepsTheInvariant : ∃ s t : State, StateInv s ∧ step s = .next t :=
  ⟨sent 0x6000 0 p1End, _, ⟨inv_p1End.memory, inv_p1End.leaves, inv_p1End.tree, inv_p1End.codes, inv_p1End.errors⟩, rfl⟩

theorem witness_EveryReachableStateGoesOn : (∃ s : State, StateInv s) ∧ (∃ s t : State, exec .clear s = .next t) :=
  ⟨⟨p1End, inv_p1End⟩, ⟨p1End, _, rfl⟩⟩

theorem witness_UnreadablePartsAreNeverObserved : ∃ s s' : State, s ≠ s' ∧ indistinguishable s s' := by
  refine ⟨s1Tree, { s1Tree with block := { s1Tree.block with code := [(0, [])] } }, by decide, ?_, rfl, rfl⟩
  exact ⟨rfl, rfl, rfl, rfl, rfl, rfl, fun _ => ⟨rfl, rfl, rfl⟩, fun h => by cases h⟩

end Sys2Proof.Machine.Tests
end

/-! PROOFS. The shape of the tree that `BUILD` leaves (10_state.md R33, 41_tree_build.md R129 to R132). -/

namespace Sys2Proof.Machine

/-! ### One slot written -/

@[simp] theorem readNode_writeNode_self (ns : NodeStore) (n : Idx) (v : Node) :
    readNode (writeNode ns n v) n = some v := by
  rw [readNode_writeNode, if_pos rfl]

theorem readNode_writeNode_of_val_ne {n m : Idx} (h : m.val ≠ n.val) (ns : NodeStore) (v : Node) :
    readNode (writeNode ns n v) m = readNode ns m := by
  rw [readNode_writeNode, if_neg (fun he => h (congrArg Fin.val he.symm))]

theorem isSome_readNode_writeNode {ns : NodeStore} {m : Idx} (h : (readNode ns m).isSome) (n : Idx) (v : Node) :
    (readNode (writeNode ns n v) m).isSome := by
  rw [readNode_writeNode]
  split
  · rfl
  · exact h

/-! ### The node store and `NEXT` during the loop -/

/-- What every pass of the loop of `BUILD` keeps, for the table `f`: `NEXT` counts the passes, the leaves are those of
INIT, the internal nodes fill the slots from 256 up to `NEXT`, the children of each are valid and lower, and the
working set lists valid slots. -/
structure BuildInv (f : FreqStore) (w : Work) : Prop where
  count : w.next + w.queue.length = 256 + presentCount f
  first : 256 ≤ w.next
  nonempty : presentCount f ≠ 0 → w.queue ≠ []
  leaf : ∀ c, readNode w.node (leafSlot c) = if readFreq f c = 0 then none else some (leafNode c (readFreq f c))
  internal : ∀ n : Idx, 256 ≤ n.val → n.val < w.next → ∃ rep fr l r, readNode w.node n = some (.internal rep fr l r)
  unused : ∀ n : Idx, w.next ≤ n.val → readNode w.node n = none
  children : ∀ (n : Idx) rep fr l r, readNode w.node n = some (.internal rep fr l r) →
    l < n ∧ r < n ∧ (readNode w.node l).isSome ∧ (readNode w.node r).isSome
  queue : ∀ e ∈ w.queue, e.slot.val < w.next ∧ readNode w.node e.slot = some e.node

theorem exists_leafSlot_eq {n : Idx} (h : n.val < 256) : ∃ c, n = leafSlot c :=
  ⟨BitVec.ofNat 8 n.val, Fin.ext (by simp [Nat.mod_eq_of_lt h])⟩

/-- INIT writes leaves only. -/
theorem initWork_not_internal {f : FreqStore} {n l r : Idx} {rep : CharCode} {fr : FreqSum} :
    readNode (initWork f).node n ≠ some (.internal rep fr l r) := by
  rcases Nat.lt_or_ge n.val 256 with hn | hn
  · obtain ⟨c, rfl⟩ := exists_leafSlot_eq hn
    rw [initWork_leaf]
    split <;> simp [leafNode]
  · simp [initWork_internal f n hn]

theorem buildInv_initWork (f : FreqStore) : BuildInv f (initWork f) where
  count := by rw [initWork_next, initWork_queue_length]
  first := (initWork_next f).ge
  nonempty h := by rwa [← List.length_pos_iff_ne_nil, initWork_queue_length, Nat.pos_iff_ne_zero]
  leaf := initWork_leaf f
  internal n h h' := by rw [initWork_next] at h'; omega
  unused n h := initWork_internal f n ((initWork_next f).ge.trans h)
  children n rep fr l r h := absurd h initWork_not_internal
  queue e he := by
    simp only [initWork_queue, List.mem_reverse, List.mem_map, List.mem_filter, bne_iff_ne] at he
    obtain ⟨c, ⟨-, hc⟩, rfl⟩ := he
    rw [initWork_next, initWork_leaf, if_neg hc]
    exact ⟨c.isLt, rfl⟩

/-- The elements that two selections take from a list: the two, and those left, are its elements. -/
theorem mem_of_takeLeast_twice {q rest rest' : List Entry} {a b : Entry} (ha : takeLeast q = some (a, rest))
    (hb : takeLeast rest = some (b, rest')) : a ∈ q ∧ b ∈ q ∧ ∀ e ∈ rest', e ∈ q := by
  have hp : q.Perm (a :: b :: rest') := (takeLeast_perm ha).trans ((takeLeast_perm hb).cons a)
  refine ⟨hp.mem_iff.mpr ?_, hp.mem_iff.mpr ?_, fun e he => hp.mem_iff.mpr ?_⟩ <;> simp [*]

theorem buildInv_combineOnce {f : FreqStore} {w w' : Work} (hw : BuildInv f w) (h : combineOnce w = some w') :
    BuildInv f w' := by
  obtain ⟨a, b, rest, rest', hn, ha, hb, rfl⟩ := combineOnce_eq_some h
  obtain ⟨haq, hbq, hrest⟩ := mem_of_takeLeast_twice ha hb
  have hlen := takeLeast_length ha
  have hlen' := takeLeast_length hb
  constructor <;> dsimp only
  case count => have := hw.count; simp only [List.length_cons]; omega
  case first => have := hw.first; omega
  case nonempty => simp
  case leaf =>
    intro c
    have := hw.first
    have := c.isLt
    rw [readNode_writeNode_of_val_ne (show c.toNat ≠ w.next by omega), hw.leaf]
  case internal =>
    intro n h256 hlt
    by_cases he : n = ⟨w.next, hn⟩
    · rw [he]
      exact ⟨_, _, _, _, readNode_writeNode_self ..⟩
    · have hne : n.val ≠ w.next := fun h => he (Fin.ext h)
      rw [readNode_writeNode_of_val_ne hne]
      exact hw.internal n h256 (by omega)
  case unused =>
    intro n hle
    rw [readNode_writeNode_of_val_ne (show n.val ≠ w.next by omega)]
    exact hw.unused n (by omega)
  case children =>
    intro n rep fr l r hr
    by_cases he : n = ⟨w.next, hn⟩
    · rw [he, readNode_writeNode_self] at hr
      cases hr
      obtain ⟨hla, hra⟩ := hw.queue a haq
      obtain ⟨hlb, hrb⟩ := hw.queue b hbq
      exact ⟨he ▸ hla, he ▸ hlb, isSome_readNode_writeNode (by simp [hra]) ..,
        isSome_readNode_writeNode (by simp [hrb]) ..⟩
    · rw [readNode_writeNode_of_val_ne (fun h => he (Fin.ext h))] at hr
      obtain ⟨hl, hr', hls, hrs⟩ := hw.children n rep fr l r hr
      exact ⟨hl, hr', isSome_readNode_writeNode hls .., isSome_readNode_writeNode hrs ..⟩
  case queue =>
    intro e he
    rcases List.mem_cons.mp he with rfl | he
    · exact ⟨Nat.lt_succ_self _, readNode_writeNode_self ..⟩
    · obtain ⟨hlt, hr⟩ := hw.queue e (hrest e he)
      exact ⟨by omega, by rw [readNode_writeNode_of_val_ne hlt.ne, hr]⟩

/-! ### The end of the loop -/

/-- One pass takes two nodes from the working set and puts one back. -/
theorem combineOnce_length {w w' : Work} (h : combineOnce w = some w') : w.queue.length = w'.queue.length + 1 := by
  obtain ⟨a, b, rest, rest', hn, ha, hb, rfl⟩ := combineOnce_eq_some h
  rw [takeLeast_length ha, takeLeast_length hb, List.length_cons]

/-- With fuel for its passes the loop ends with at most one node in the working set. -/
theorem combineLoop_queue_length_le_one {f : FreqStore} (fuel : Nat) {w : Work} (hw : BuildInv f w)
    (hfuel : w.queue.length ≤ fuel + 1) : (combineLoop fuel w).queue.length ≤ 1 := by
  induction fuel generalizing w with
  | zero => exact hfuel
  | succ fuel ih =>
    simp only [combineLoop]
    split
    · have := hw.count
      have := presentCount_le f
      rcases combineOnce_eq_none.mp ‹_› with h | h <;> omega
    · have := combineOnce_length ‹_›
      exact ih (buildInv_combineOnce hw ‹_›) (by omega)

theorem buildInv_builtWork (f : FreqStore) : BuildInv f (builtWork f) :=
  combineLoop_keeps (fun _ _ => buildInv_combineOnce) _ _ (buildInv_initWork f)

/-- The loop ends with one node, and with none when no character occurs (41_tree_build.md R129). -/
theorem builtWork_queue_length (f : FreqStore) : (builtWork f).queue.length = min (presentCount f) 1 := by
  have hle : (builtWork f).queue.length ≤ 1 := combineLoop_queue_length_le_one _ (buildInv_initWork f) <| by
    rw [initWork_queue_length]; exact presentCount_le f
  have hinv := buildInv_builtWork f
  have hcount := hinv.count
  have hfirst := hinv.first
  by_cases h0 : presentCount f = 0
  · omega
  · have := List.length_pos_iff_ne_nil.mpr (hinv.nonempty h0)
    omega

/-- `NEXT` when the loop has ended (41_tree_build.md R130). -/
theorem builtWork_next (f : FreqStore) : (builtWork f).next = 256 + (presentCount f - 1) := by
  have hcount := (buildInv_builtWork f).count
  rw [builtWork_queue_length] at hcount
  omega

/-! ### The tree left in `NODE`, `NLEAF`, `ROOT` -/

theorem buildTree_nleaf (f : FreqStore) : (buildTree f).nleaf.toNat = presentCount f := leafCount_initWork f

/-- `ROOT` is 0 for a table with no character (41_tree_build.md R131). -/
theorem buildTree_root_of_no_leaf {f : FreqStore} (h : (buildTree f).nleaf.toNat = 0) : (buildTree f).root = 0 := by
  have hq : (builtWork f).queue = [] := by
    rw [← List.length_eq_zero_iff, builtWork_queue_length, ← buildTree_nleaf, h, Nat.zero_min]
  simp [buildTree, hq, finishRoot]

/-- The slots from 256 on that are filled are those below `NEXT`, by number of leaves (41_tree_build.md R132). -/
theorem lt_builtWork_next_iff {f : FreqStore} {n : Nat} (hn : 256 ≤ n) :
    n < (builtWork f).next ↔ n + 2 ≤ 256 + (buildTree f).nleaf.toNat := by
  rw [builtWork_next, buildTree_nleaf]
  omega

theorem buildTree_leaf (f : FreqStore) (c : CharCode) :
    readNode (buildTree f).node (leafSlot c) =
      if readFreq f c = 0 then none else some (.leaf c ((readFreq f c).setWidth 40)) :=
  (buildInv_builtWork f).leaf c

/-- Which slots from 256 on hold an internal node; the others hold nothing. -/
theorem buildTree_internal {f : FreqStore} {n : Idx} (hn : 256 ≤ n.val) :
    ((∃ rep fr l r, readNode (buildTree f).node n = some (.internal rep fr l r)) ↔
      n.val + 2 ≤ 256 + (buildTree f).nleaf.toNat) ∧
    (¬ n.val + 2 ≤ 256 + (buildTree f).nleaf.toNat → readNode (buildTree f).node n = none) := by
  rw [← lt_builtWork_next_iff hn]
  have hunused : ¬ n.val < (builtWork f).next → readNode (buildTree f).node n = none :=
    fun h => (buildInv_builtWork f).unused n (by omega)
  refine ⟨⟨fun ⟨rep, fr, l, r, hr⟩ => ?_, (buildInv_builtWork f).internal n hn⟩, hunused⟩
  by_contra hlt
  rw [hunused hlt] at hr
  cases hr

theorem buildTree_children {f : FreqStore} {n l r : Idx} {rep : CharCode} {fr : FreqSum}
    (h : readNode (buildTree f).node n = some (.internal rep fr l r)) :
    l < n ∧ r < n ∧ (readNode (buildTree f).node l).isSome ∧ (readNode (buildTree f).node r).isSome :=
  (buildInv_builtWork f).children n rep fr l r h

/-- `BUILD` completes in every state. -/
theorem exec_build (s : State) : exec .build s = .next (respondOk 0 (onBlock buildBlock s)) := rfl

/-- Settles O32: the loop invariant `BuildInv` at the end of the loop, with `NEXT` read off the number of leaves. -/
theorem builtTreeHasTheShapeOfTheRule : Obligations.BuiltTreeHasTheShapeOfTheRule := by
  intro s
  exact ⟨_, exec_build s, buildTree_leaf _, fun _ => buildTree_internal, fun _ _ _ _ _ => buildTree_children⟩

end Sys2Proof.Machine

/-! PROOFS. What every step keeps: the invariant of the states a run can reach. -/

namespace Sys2Proof.Machine

/-! ### Each update of the block keeps the invariant -/

/-- The invariant speaks of the block alone. -/
theorem StateInv.of_block_eq {s t : State} (h : StateInv s) (hb : t.block = s.block) : StateInv t := by
  obtain ⟨hmem, hleaves, htree, hcodes, herr⟩ := h
  constructor <;> rw [hb] <;> assumption

theorem stateInv_of_reset {t : State} (hb : t.block = Block.reset) : StateInv t := by
  constructor <;> rw [hb]
  · rfl
  · simp
  · intro h; cases h rfl
  · intro h; cases h
  · simp [errorRecordOk]

/-- An update of the error record alone keeps the invariant when the new record is consistent. -/
theorem StateInv.of_sameButErrors {s t : State} (h : StateInv s) (hb : sameButErrors s.block t.block)
    (herr : errorRecordOk t.block) : StateInv t := by
  obtain ⟨hmem, hleaves, htree, hcodes, -⟩ := h
  obtain ⟨hfreq, hphase, hnleaf, hroot, hnode, hcode⟩ := hb
  refine ⟨?_, ?_, ?_, ?_, herr⟩
  · simpa only [Memory.wf, hfreq, hnode, hcode] using hmem
  · simpa only [hnleaf] using hleaves
  · simpa only [treeCurrent, hphase, hfreq, hnode, hnleaf, hroot] using htree
  · simpa only [codesCurrent, hphase, hnode, hnleaf, hroot, hcode] using hcodes

theorem StateInv.of_clearErrors {s t : State} (h : StateInv s) (hb : t.block = clearErrors s.block) : StateInv t := by
  refine h.of_sameButErrors ?_ ?_ <;> rw [hb]
  · exact ⟨rfl, rfl, rfl, rfl, rfl, rfl⟩
  · simp [errorRecordOk]

/-- Recording an error of either kind keeps the invariant. -/
theorem StateInv.of_recordError {s t : State} {code : Resp} {cmd : CmdWord} (h : StateInv s)
    (hb : t.block = recordError code cmd s.block) : StateInv t := by
  cases code
  case ok => exact h.of_block_eq hb
  case illegal | seq =>
    refine h.of_sameButErrors ?_ ?_ <;> rw [hb]
    · exact ⟨rfl, rfl, rfl, rfl, rfl, rfl⟩
    · simp [errorRecordOk]

theorem StateInv.of_wfreqBlock {s t : State} {c : CharCode} {v : Word} (h : StateInv s)
    (hb : t.block = wfreqBlock c v s.block) : StateInv t := by
  obtain ⟨hmem, hleaves, -, -, herr⟩ := h
  simp only [Memory.wf, Bool.and_eq_true] at hmem
  obtain ⟨⟨hfreq, hnode⟩, hcode⟩ := hmem
  constructor <;> rw [hb]
  case memory => simp [Memory.wf, freqWf_writeFreq c v hfreq, hnode, hcode]
  case leaves => exact hleaves
  case tree => intro hp; cases hp rfl
  case codes => intro hp; cases hp
  case errors => exact herr

theorem StateInv.of_buildBlock {s t : State} (h : StateInv s) (hb : t.block = buildBlock s.block) : StateInv t := by
  obtain ⟨hmem, -, -, -, herr⟩ := h
  simp only [Memory.wf, Bool.and_eq_true] at hmem
  obtain ⟨⟨hfreq, -⟩, hcode⟩ := hmem
  constructor <;> rw [hb]
  case memory => simp [Memory.wf, hfreq, nodeWf_buildTree, hcode]
  case leaves => rw [buildBlock_nleaf, buildTree_nleaf]; exact presentCount_le _
  case tree => exact fun _ => ⟨rfl, rfl, rfl⟩
  case codes => intro hp; cases hp
  case errors => exact herr

/-- `GEN` keeps the invariant in the phases that allow it, where the tree it reads is that of the present `FREQ`. -/
theorem StateInv.of_genBlock {s t : State} {cs : CodeStore} (h : StateInv s) (hphase : s.block.phase ≠ .load)
    (hcs : genCodes s.block.node s.block.nleaf s.block.root = .ok cs) (hb : t.block = genBlock cs s.block) :
    StateInv t := by
  obtain ⟨hmem, hleaves, htree, -, herr⟩ := h
  simp only [Memory.wf, Bool.and_eq_true] at hmem
  obtain ⟨⟨hfreq, hnode⟩, -⟩ := hmem
  constructor <;> rw [hb]
  case memory => simp [Memory.wf, hfreq, hnode, codeWf_genCodes hcs]
  case leaves => exact hleaves
  case tree => exact fun _ => htree hphase
  case codes => exact fun _ => hcs
  case errors => exact herr

/-! ### Each command and each step keeps it -/

theorem StateInv.of_okBlock {i : Instr} {s t : State} (h : StateInv s) (hallowed : allowed i s.block.phase = true)
    (hb : okBlock i s.block t.block) : StateInv t := by
  cases i
  case clear => exact stateInv_of_reset hb
  case clrerr => exact h.of_clearErrors hb
  case wfreq c v => exact h.of_wfreqBlock hb
  case build => exact h.of_buildBlock hb
  case gen =>
    obtain ⟨cs, hcs, hb⟩ := hb
    exact h.of_genBlock (by simpa [allowed] using hallowed) hcs hb
  case rfreq | rstat | rroot | rnode | rnfl | rnfh | rclen | rcbits | rerr => exact h.of_block_eq hb

theorem StateInv.of_exec {i : Instr} {s t : State} (h : StateInv s) (ht : exec i s = .next t) : StateInv t := by
  rcases exec_next_cases ht with ⟨-, rfl⟩ | ⟨-, -, rfl⟩ | ⟨-, hallowed, b, hb, rfl⟩
  · exact h.of_recordError (raiseErr_block ..)
  · exact h.of_recordError (raiseErr_block ..)
  · exact h.of_okBlock hallowed hb

/-- Settles O53: a step waits, resets, records an error or runs a command, and each keeps the invariant. -/
theorem stepKeepsTheInvariant : Obligations.StepKeepsTheInvariant := by
  intro s t h ht
  rcases step_next_cases ht with ⟨-, rfl⟩ | ⟨es, -, rfl⟩ | ⟨cmd, din, es, -, ⟨e, -, rfl⟩ | ⟨i, -, hexec⟩⟩
  · exact h
  · exact stateInv_of_reset rfl
  · exact h.of_recordError (raiseErr_block ..)
  · exact StateInv.of_exec (s := { s with pending := es }) (h.of_block_eq rfl) hexec

/-- Settles O52: `PHASE` is LOAD after reset, so the clauses on the tree and the codes ask nothing. -/
theorem resetStateMeetsTheInvariant : Obligations.ResetStateMeetsTheInvariant := stateInv_of_reset rfl

end Sys2Proof.Machine

/-! PROOFS. Two blocks side by side: what a command does where they differ in what it may not depend on
(10_state.md R29, R56). -/

namespace Sys2Proof.Machine

/-! ### How a command goes on, from its checks: the converse of `exec_next_cases` -/

theorem exec_of_not_wellFormed {i : Instr} (s : State) (h : i.wellFormed = false) :
    exec i s = .next (raiseErr .illegal (cmdOf i) s) := by
  cases i
  case rnode | rnfl | rnfh => exact whenIndexOk_of_not_ok _ h
  all_goals cases h

theorem exec_of_not_allowed {i : Instr} {s : State} (hwf : i.wellFormed = true)
    (h : allowed i s.block.phase = false) : exec i s = .next (raiseErr .seq (cmdOf i) s) := by
  cases i
  case rnode | rnfl | rnfh => exact (whenIndexOk_of_ok _ hwf).trans (whenAllowed_of_not_allowed _ h)
  all_goals exact whenAllowed_of_not_allowed _ h

theorem exec_of_okBlock {i : Instr} {s : State} {b : Block} (hwf : i.wellFormed = true)
    (h : allowed i s.block.phase = true) (hb : okBlock i s.block b) :
    exec i s = .next (respondOk (okWord i s.block) { s with block := b }) := by
  cases i
  case gen =>
    obtain ⟨cs, hcs, rfl⟩ := hb
    exact (whenAllowed_of_allowed _ h).trans (finishGen_eq_next.mpr ⟨cs, hcs, rfl⟩)
  case rnode | rnfl | rnfh =>
    cases hb
    exact (whenIndexOk_of_ok _ hwf).trans (whenAllowed_of_allowed _ h)
  all_goals
    cases hb
    exact whenAllowed_of_allowed _ h

theorem exec_gen_of_genCodes_error {s : State} {e : Fault} (h : allowed .gen s.block.phase = true)
    (he : genCodes s.block.node s.block.nleaf s.block.root = .error e) : exec .gen s = .fault e := by
  refine (whenAllowed_of_allowed _ h).trans ?_
  rw [he, finishGen]

/-! ### Blocks that differ in the error record -/

theorem sameButErrors.okBlock {i : Instr} {b b' c : Block} (h : sameButErrors b b') (hc : okBlock i b c) :
    ∃ c', okBlock i b' c' ∧ sameButErrors c c' := by
  have hsame := h
  obtain ⟨hfreq, hphase, hnleaf, hroot, hnode, hcode⟩ := h
  cases i
  case clear => exact ⟨_, rfl, hc ▸ ⟨rfl, rfl, rfl, rfl, rfl, rfl⟩⟩
  case clrerr => exact ⟨_, rfl, hc ▸ hsame⟩
  case wfreq a v => exact ⟨_, rfl, hc ▸ ⟨congrArg (writeFreq · a v) hfreq, rfl, hnleaf, hroot, hnode, hcode⟩⟩
  case build =>
    have htree := congrArg buildTree hfreq
    exact ⟨_, rfl, hc ▸ ⟨hfreq, rfl, congrArg Tree.nleaf htree, congrArg Tree.root htree,
      congrArg Tree.node htree, hcode⟩⟩
  case gen =>
    obtain ⟨cs, hcs, rfl⟩ := hc
    rw [hnode, hnleaf, hroot] at hcs
    exact ⟨_, ⟨cs, hcs, rfl⟩, hfreq, rfl, hnleaf, hroot, hnode, rfl⟩
  case rfreq | rstat | rroot | rnode | rnfl | rnfh | rclen | rcbits | rerr => exact ⟨_, rfl, hc ▸ hsame⟩

theorem sameButErrors.okWord {i : Instr} {b b' : Block} (h : sameButErrors b b') (hstat : i ≠ .rstat)
    (herr : i ≠ .rerr) : okWord i b = okWord i b' := by
  obtain ⟨hfreq, hphase, hnleaf, hroot, hnode, hcode⟩ := h
  cases i
  case rstat => exact absurd rfl hstat
  case rerr => exact absurd rfl herr
  case rfreq c => exact congrArg (readFreq · c) hfreq
  case rroot => simp only [Machine.okWord, rootWord, rootvFlag, hphase, hnleaf, hroot]
  case rnode | rnfl | rnfh => simp only [Machine.okWord, nodeAt, hnode]
  case rclen | rcbits => simp only [Machine.okWord, hcode]
  case clear | clrerr | wfreq | build | gen => rfl

theorem sameButErrors.recordError {code : Resp} {cmd : CmdWord} {b b' : Block} (h : sameButErrors b b') :
    sameButErrors (recordError code cmd b) (recordError code cmd b') := by
  cases code <;> exact h

/-- Settles O18: whether a command is refused, the block it leaves and the word it answers read the error record in
`RSTAT` and `RERR` alone. -/
theorem errorRecordInfluencesNoCommand : Obligations.ErrorRecordInfluencesNoCommand := by
  intro i s s' t h ht
  have ⟨_, hphase, _⟩ := h
  rcases exec_next_cases ht with ⟨hwf, rfl⟩ | ⟨hwf, hallowed, rfl⟩ | ⟨hwf, hallowed, b, hb, rfl⟩
  · exact ⟨_, _, _, exec_of_not_wellFormed s' hwf, h.recordError, rfl, rfl, rfl, fun _ _ => rfl⟩
  · rw [hphase] at hallowed
    exact ⟨_, _, _, exec_of_not_allowed hwf hallowed, h.recordError, rfl, rfl, rfl, fun _ _ => rfl⟩
  · rw [hphase] at hallowed
    obtain ⟨b', hb', hsame⟩ := h.okBlock hb
    exact ⟨_, _, _, exec_of_okBlock hwf hallowed hb', hsame, rfl, rfl, rfl,
      fun hstat herr => congrArg (Response.mk .ok) (h.okWord hstat herr)⟩

/-! ### Blocks that differ in unreadable parts -/

theorem readableEq_refl (b : Block) : readableEq b b :=
  ⟨rfl, rfl, rfl, rfl, rfl, rfl, fun _ => ⟨rfl, rfl, rfl⟩, fun _ => rfl⟩

theorem readableEq.recordError {code : Resp} {cmd : CmdWord} {b b' : Block} (h : readableEq b b') :
    readableEq (recordError code cmd b) (recordError code cmd b') := by
  obtain ⟨hfreq, hphase, hill, hseq, hcmd, hcode, hrest⟩ := h
  cases code
  case ok => exact ⟨hfreq, hphase, hill, hseq, hcmd, hcode, hrest⟩
  case illegal => exact ⟨hfreq, hphase, rfl, hseq, rfl, rfl, hrest⟩
  case seq => exact ⟨hfreq, hphase, hill, rfl, rfl, rfl, hrest⟩

/-- The code table that `GEN` computes, in the phases that allow it, reads readable parts alone. -/
theorem readableEq.genCodes {b b' : Block} (h : readableEq b b') (hallowed : allowed .gen b.phase = true) :
    genCodes b.node b.nleaf b.root = genCodes b'.node b'.nleaf b'.root := by
  obtain ⟨-, -, -, -, -, -, htree, -⟩ := h
  obtain ⟨hnode, hnleaf, hroot⟩ := htree (by simpa [allowed] using hallowed)
  rw [hnode, hnleaf, hroot]

theorem readableEq.okBlock {i : Instr} {b b' c : Block} (h : readableEq b b') (hallowed : allowed i b.phase = true)
    (hc : okBlock i b c) : ∃ c', okBlock i b' c' ∧ readableEq c c' := by
  have hsame := h
  obtain ⟨hfreq, hphase, hill, hseq, hcmd, hcode, htree, hcodes⟩ := h
  cases i
  case clear => exact ⟨_, rfl, hc ▸ readableEq_refl _⟩
  case clrerr => exact ⟨_, rfl, hc ▸ ⟨hfreq, hphase, rfl, rfl, rfl, rfl, htree, hcodes⟩⟩
  case wfreq a v =>
    exact ⟨_, rfl, hc ▸ ⟨congrArg (writeFreq · a v) hfreq, rfl, hill, hseq, hcmd, hcode, fun hp => absurd rfl hp,
      fun hp => nomatch hp⟩⟩
  case build =>
    have heq := congrArg buildTree hfreq
    exact ⟨_, rfl, hc ▸ ⟨hfreq, rfl, hill, hseq, hcmd, hcode,
      fun _ => ⟨congrArg Tree.node heq, congrArg Tree.nleaf heq, congrArg Tree.root heq⟩, fun hp => nomatch hp⟩⟩
  case gen =>
    obtain ⟨cs, hcs, rfl⟩ := hc
    exact ⟨_, ⟨cs, hsame.genCodes hallowed ▸ hcs, rfl⟩, hfreq, rfl, hill, hseq, hcmd, hcode,
      fun _ => htree (by simpa [allowed] using hallowed), fun _ => rfl⟩
  case rfreq | rstat | rroot | rnode | rnfl | rnfh | rclen | rcbits | rerr => exact ⟨_, rfl, hc ▸ hsame⟩

/-- A read answers from readable parts alone, where its phase allows it. -/
theorem readableEq.okWord {i : Instr} {b b' : Block} (h : readableEq b b') (hallowed : allowed i b.phase = true) :
    okWord i b = okWord i b' := by
  obtain ⟨hfreq, hphase, hill, hseq, hcmd, hcode, htree, hcodes⟩ := h
  cases i
  case rfreq c => exact congrArg (readFreq · c) hfreq
  case rerr => simp only [Machine.okWord, errWord, hcode, hcmd]
  case rstat =>
    simp only [Machine.okWord, statusWord, emptyFlag, singleFlag, nleafField, ← hphase, hill, hseq]
    by_cases hp : b.phase = .load
    · simp [hp]
    · obtain ⟨-, hnleaf, -⟩ := htree hp
      rw [hnleaf]
  case rroot =>
    obtain ⟨-, hnleaf, hroot⟩ := htree (by simpa [allowed] using hallowed)
    simp only [Machine.okWord, rootWord, rootvFlag, hphase, hnleaf, hroot]
  case rnode | rnfl | rnfh =>
    obtain ⟨hnode, -, -⟩ := htree (by simpa [allowed] using hallowed)
    simp only [Machine.okWord, nodeAt, hnode]
  case rclen | rcbits => simp only [Machine.okWord, hcodes (by simpa [allowed] using hallowed)]
  case clear | clrerr | wfreq | build | gen => rfl

/-! ### Commands, steps and runs from two indistinguishable states -/

theorem indistinguishable.raiseErr {code : Resp} {cmd : CmdWord} {s s' : State} (h : indistinguishable s s') :
    indistinguishable (raiseErr code cmd s) (raiseErr code cmd s') := by
  obtain ⟨hblock, hpending, hresponses⟩ := h
  exact ⟨hblock.recordError, hpending, congrArg (· ++ _) hresponses⟩

theorem indistinguishable.exec {i : Instr} {s s' : State} (h : indistinguishable s s') :
    sameOutcome indistinguishable (exec i s) (exec i s') := by
  have hsame := h
  obtain ⟨hblock, hpending, hresponses⟩ := h
  have ⟨_, hphase, _⟩ := hblock
  match ht : Machine.exec i s with
  | .next t =>
    rcases exec_next_cases ht with ⟨hwf, rfl⟩ | ⟨hwf, hallowed, rfl⟩ | ⟨hwf, hallowed, b, hb, rfl⟩
    · rw [exec_of_not_wellFormed s' hwf]
      exact hsame.raiseErr
    · rw [exec_of_not_allowed hwf (hphase ▸ hallowed)]
      exact hsame.raiseErr
    · obtain ⟨b', hb', hread⟩ := hblock.okBlock hallowed hb
      rw [exec_of_okBlock hwf (hphase ▸ hallowed) hb', hblock.okWord hallowed]
      exact ⟨hread, hpending, congrArg (· ++ _) hresponses⟩
  | .fault e =>
    obtain ⟨rfl, hallowed, he⟩ := exec_fault_cases ht
    rw [exec_gen_of_genCodes_error (hphase ▸ hallowed) (hblock.genCodes hallowed ▸ he)]
    rfl
  | .refused r => exact absurd ht exec_not_refused

theorem indistinguishable.step {s s' : State} (h : indistinguishable s s') :
    sameOutcome indistinguishable (step s) (step s') := by
  obtain ⟨hblock, hpending, hresponses⟩ := h
  match hp : s.pending with
  | [] =>
    rw [step_of_nothing_pending hp, step_of_nothing_pending (hpending ▸ hp)]
    exact ⟨hblock, hpending, hresponses⟩
  | .reset :: es =>
    rw [step_of_reset hp, step_of_reset (hpending ▸ hp)]
    exact ⟨readableEq_refl _, rfl, hresponses⟩
  | .command cmd din :: es =>
    rw [step_of_command hp, step_of_command (hpending ▸ hp)]
    have htaken : indistinguishable { s with pending := es } { s' with pending := es } := ⟨hblock, rfl, hresponses⟩
    unfold stepCommand
    split
    · exact htaken.exec
    · exact htaken.raiseErr

/-- Settles O55, by induction on the number of steps. -/
theorem unreadablePartsAreNeverObserved : Obligations.UnreadablePartsAreNeverObserved := by
  intro k
  induction k with
  | zero => exact fun s s' h => h
  | succ k ih =>
    intro s s' h
    have hstep := h.step
    unfold runSteps
    match hs : step s, hs' : step s' with
    | .next t, .next t' => rw [hs, hs'] at hstep; exact ih t t' hstep
    | .fault e, .fault e' => rw [hs, hs'] at hstep; exact hstep
    | .refused r, .refused r' => rw [hs, hs'] at hstep; exact hstep
    | .next _, .fault _ | .next _, .refused _ | .fault _, .next _ | .fault _, .refused _ | .refused _, .next _
    | .refused _, .fault _ => rw [hs, hs'] at hstep; exact False.elim hstep

end Sys2Proof.Machine

/-! PROOFS. Which items of the state each command changes, and how (10_state.md R20, R22, R25, R29, R53, R55). -/

namespace Sys2Proof.Machine

/-! ### An error changes the error record alone -/

theorem sameButErrors_recordError (code : Resp) (cmd : CmdWord) (b : Block) :
    sameButErrors b (recordError code cmd b) := by
  cases code <;> exact ⟨rfl, rfl, rfl, rfl, rfl, rfl⟩

/-- A command is refused for its node index or for its phase. -/
def Refused (i : Instr) (p : Phase) : Prop := i.wellFormed = false ∨ allowed i p = false

theorem not_refused {i : Instr} {p : Phase} (hwf : i.wellFormed = true) (h : allowed i p = true) : ¬ Refused i p := by
  simp [Refused, hwf, h]

/-- What a command does to the block: it is refused and changes the error record alone, or it leaves the block of its
rule. -/
theorem exec_block_cases {i : Instr} {s t : State} (h : exec i s = .next t) :
    Refused i s.block.phase ∧ sameButErrors s.block t.block ∨
    allowed i s.block.phase = true ∧ okBlock i s.block t.block := by
  rcases exec_next_cases h with ⟨hwf, rfl⟩ | ⟨-, hallowed, rfl⟩ | ⟨-, hallowed, b, hb, rfl⟩
  · exact .inl ⟨.inl hwf, sameButErrors_recordError ..⟩
  · exact .inl ⟨.inr hallowed, sameButErrors_recordError ..⟩
  · exact .inr ⟨hallowed, hb⟩

theorem exec_clear (s : State) : exec .clear s = .next (respondOk 0 (onBlock resetBlock s)) := rfl

theorem block_of_step_reset {s t : State} {es : List Event} (hp : s.pending = .reset :: es) (h : step s = .next t) :
    t.block = Block.reset := by
  rw [step_of_reset hp] at h
  cases h
  rfl

/-! ### Reset and CLEAR -/

/-- Settles O1, by computation on the one reset state. -/
theorem resetStateHoldsTheResetValues : Obligations.ResetStateHoldsTheResetValues :=
  ⟨fun _ => rfl, rfl, rfl, rfl, fun _ => rfl, fun _ => rfl, rfl, rfl, rfl, rfl, by decide, by decide⟩

/-- Settles O3. -/
theorem clearLeavesExactlyTheResetBlock : Obligations.ClearLeavesExactlyTheResetBlock := by
  refine ⟨exec_clear, fun s s' t t' es h hp h' => ?_⟩
  rw [exec_clear] at h
  cases h
  exact (block_of_step_reset hp h').symm

/-! ### Which command writes which item -/

/-- The value of entry `d` of `FREQ` after a command that ends OK (10_state.md R22). -/
def freqAfter (i : Instr) (f : FreqStore) (d : CharCode) : Freq :=
  match i with
  | .wfreq c v => if d = c then v else readFreq f d
  | .clear => 0
  | _ => readFreq f d

theorem okBlock_readFreq {i : Instr} {b b' : Block} (h : okBlock i b b') (d : CharCode) :
    readFreq b'.freq d = freqAfter i b.freq d := by
  cases i
  case wfreq c v =>
    cases h
    exact (readFreq_writeFreq ..).trans (if_congr eq_comm rfl rfl)
  case gen => obtain ⟨cs, -, rfl⟩ := h; rfl
  all_goals cases h; rfl

theorem freqAfter_of_refused {i : Instr} {p : Phase} (h : Refused i p) (f : FreqStore) (d : CharCode) :
    freqAfter i f d = readFreq f d := by
  cases i
  case clear | wfreq => exact absurd h (not_refused rfl rfl)
  all_goals rfl

/-- Settles O9: a command that ends OK leaves `FREQ` by its rule, and a refused one leaves it as it is. -/
theorem frequencyTableChangesOnlyByItsWriters : Obligations.FrequencyTableChangesOnlyByItsWriters := by
  refine ⟨fun i s t h d => ?_, fun s t es hp h d => ?_, fun c s t h => ?_⟩
  · change readFreq t.block.freq d = freqAfter i s.block.freq d
    rcases exec_block_cases h with ⟨hrefused, hfreq, -⟩ | ⟨-, hb⟩
    · rw [freqAfter_of_refused hrefused, hfreq]
    · exact okBlock_readFreq hb d
  · rw [block_of_step_reset hp h]
    rfl
  · cases h
    rfl

theorem okBlock_phase {i : Instr} {b b' : Block} (h : okBlock i b b') (hallowed : allowed i b.phase = true) :
    b'.phase = phaseAfter i b.phase := by
  cases i
  case gen =>
    obtain ⟨cs, -, rfl⟩ := h
    cases hp : b.phase
    case load => rw [hp] at hallowed; cases hallowed
    all_goals rfl
  all_goals cases h; rfl

theorem phaseAfter_of_refused {i : Instr} {p : Phase} (h : Refused i p) : phaseAfter i p = p := by
  cases i
  case clear | wfreq | build => exact absurd h (not_refused rfl rfl)
  case gen =>
    cases p
    case tree => exact absurd h (not_refused rfl rfl)
    all_goals rfl
  all_goals rfl

/-- Settles O12. -/
theorem phaseFollowsTheTableOfTheRule : Obligations.PhaseFollowsTheTableOfTheRule := by
  refine ⟨fun i s t h => ?_, fun s t cmd din es e hp he h => ?_, fun s t es hp h => ?_⟩
  · rcases exec_block_cases h with ⟨hrefused, -, hphase, -⟩ | ⟨hallowed, hb⟩
    · rw [phaseAfter_of_refused hrefused, hphase]
    · exact okBlock_phase hb hallowed
  · rw [step_of_command hp, stepCommand, he] at h
    cases h
    rfl
  · rw [block_of_step_reset hp h]
    rfl

theorem okBlock_tree {i : Instr} {b b' : Block} (h : okBlock i b b') (hbuild : i ≠ .build) (hclear : i ≠ .clear) :
    b'.node = b.node ∧ b'.nleaf = b.nleaf ∧ b'.root = b.root := by
  cases i
  case build => exact absurd rfl hbuild
  case clear => exact absurd rfl hclear
  case gen => obtain ⟨cs, -, rfl⟩ := h; exact ⟨rfl, rfl, rfl⟩
  all_goals cases h; exact ⟨rfl, rfl, rfl⟩

theorem okBlock_code {i : Instr} {b b' : Block} (h : okBlock i b b') (hgen : i ≠ .gen) (hclear : i ≠ .clear) :
    b'.code = b.code := by
  cases i
  case gen => exact absurd rfl hgen
  case clear => exact absurd rfl hclear
  all_goals cases h; rfl

/-- Settles O11. -/
theorem treeAndCodesChangeOnlyByTheirWriters : Obligations.TreeAndCodesChangeOnlyByTheirWriters := by
  intro i s t h
  rcases exec_block_cases h with ⟨-, -, -, hnleaf, hroot, hnode, hcode⟩ | ⟨-, hb⟩
  · exact ⟨fun _ _ => ⟨hnode.symm, hnleaf.symm, hroot.symm⟩, fun _ _ => hcode.symm⟩
  · exact ⟨okBlock_tree hb, okBlock_code hb⟩

/-! ### The error flags -/

/-- A command that ends OK leaves both flags, but for `CLEAR` and `CLRERR`, which clear both. -/
theorem okBlock_errFlags {i : Instr} {b b' : Block} (h : okBlock i b b') :
    (b'.errIll = b.errIll ∧ b'.errSeq = b.errSeq) ∨
    (i = .clear ∨ i = .clrerr) ∧ b'.errIll = false ∧ b'.errSeq = false := by
  cases i
  case clear => cases h; exact .inr ⟨.inl rfl, rfl, rfl⟩
  case clrerr => cases h; exact .inr ⟨.inr rfl, rfl, rfl⟩
  case gen => obtain ⟨cs, -, rfl⟩ := h; exact .inl ⟨rfl, rfl⟩
  all_goals cases h; exact .inl ⟨rfl, rfl⟩

/-- Settles O17: the three ways a command step can go on are an ILLEGAL answer, a SEQ answer, and the block of the
command's rule. -/
theorem errorFlagsAreSticky : Obligations.ErrorFlagsAreSticky := by
  refine ⟨fun s t cmd din es hp h => ?_, fun s t h => ?_, fun s t es hp h => ?_⟩
  · rw [step_of_command hp, stepCommand] at h
    split at h
    next i hi =>
      rcases exec_next_cases h with ⟨-, rfl⟩ | ⟨-, -, rfl⟩ | ⟨-, -, b, hb, rfl⟩
      · exact ⟨_, rfl, fun _ => rfl, nofun, nofun, fun _ _ => ⟨fun _ => rfl, id⟩⟩
      · exact ⟨_, rfl, nofun, fun _ => rfl, nofun, fun _ _ => ⟨id, fun _ => rfl⟩⟩
      · refine ⟨_, rfl, nofun, nofun, ?_⟩
        rcases okBlock_errFlags hb with ⟨hill, hseq⟩ | ⟨hclears, hill, hseq⟩
        · simp [hill, hseq]
        · refine ⟨by simp [hill, hseq], fun hclear hclrerr => ?_⟩
          rcases hclears with rfl | rfl
          · exact absurd rfl (hi ▸ hclear)
          · exact absurd rfl (hi ▸ hclrerr)
    next e he =>
      cases h
      exact ⟨_, rfl, fun _ => rfl, nofun, nofun, fun _ _ => ⟨fun _ => rfl, id⟩⟩
  · rcases h with h | h <;> cases h <;> exact ⟨rfl, rfl⟩
  · rw [block_of_step_reset hp h]
    exact ⟨rfl, rfl⟩

end Sys2Proof.Machine

/-! PROOFS. The words a host can read, field by field (10_state.md R44 to R51). -/

namespace Sys2Proof.Machine

/-! ### Fields of a word -/

theorem getElem_field {n : Nat} (v : BitVec n) (lo i : Nat) (hi : i < 32) :
    (field v lo)[i] = (decide (lo ≤ i) && v.getLsbD (i - lo)) := by
  rw [field, BitVec.getElem_shiftLeft, BitVec.getElem_setWidth]
  by_cases hlo : lo ≤ i
  · simp [hlo, Nat.not_lt.mpr hlo]
  · simp [hlo, Nat.lt_of_not_le hlo]

/-- A field is 0 outside its own place. -/
theorem getElem_field_apart {n : Nat} (v : BitVec n) {lo i : Nat} (hi : i < 32) (h : i < lo ∨ lo + n ≤ i) :
    (field v lo)[i] = false := by
  rw [getElem_field]
  rcases h with h | h
  · simp [show ¬ lo ≤ i by omega]
  · simp [v.getLsbD_of_ge (i - lo) (by omega)]

theorem getElem_field_bit (b : Bool) (lo i : Nat) (hi : i < 32) : (field (bit b) lo)[i] = (decide (i = lo) && b) := by
  rcases Nat.lt_trichotomy i lo with h | rfl | h
  · simp [getElem_field_apart _ hi (.inl h), h.ne]
  · cases b <;> simp [getElem_field, bit]
  · simp [getElem_field_apart (bit b) hi (.inr (Nat.succ_le_of_lt h)), h.ne']

/-- A field is read back from its own place. -/
theorem extract_field_same {n : Nat} (v : BitVec n) {lo : Nat} (h : lo + n ≤ 32) :
    (field v lo).extractLsb' lo n = v := by
  ext j hj
  rw [BitVec.getElem_extractLsb', BitVec.getLsbD_eq_getElem (by omega), getElem_field]
  simp [hj]

theorem extract_field_apart {n : Nat} (v : BitVec n) {lo start len : Nat} (h : start + len ≤ lo ∨ lo + n ≤ start) :
    (field v lo).extractLsb' start len = 0 := by
  ext j hj
  rw [BitVec.getElem_extractLsb']
  by_cases hin : start + j < 32
  · rw [BitVec.getLsbD_eq_getElem hin, getElem_field_apart _ _ (by omega)]
    simp
  · rw [BitVec.getLsbD_of_ge _ _ (by omega)]
    simp

@[simp] theorem idxBits_toNat (n : Idx) : (idxBits n).toNat = n.val := by
  simp only [idxBits, BitVec.toNat_ofNat]
  exact Nat.mod_eq_of_lt (n.isLt.trans (by decide))

/-! ### `STATUS` and `ERRW` -/

theorem exec_rstat (s : State) : exec .rstat s = .next (respondOk (statusWord s.block) s) := rfl

theorem exec_rerr (s : State) : exec .rerr s = .next (respondOk (errWord s.block) s) := rfl

theorem emptyFlag_eq (b : Block) : emptyFlag b = decide (b.phase ≠ .load ∧ b.nleaf.toNat = 0) := by
  rw [Bool.eq_iff_iff]
  simp [emptyFlag, ← BitVec.toNat_inj]

theorem singleFlag_eq (b : Block) : singleFlag b = decide (b.phase ≠ .load ∧ b.nleaf.toNat = 1) := by
  rw [Bool.eq_iff_iff]
  simp [singleFlag, ← BitVec.toNat_inj]

/-- Settles O5: the fields of `STATUS` stand apart, so each is read back from its own place. -/
theorem rstatAnswersTheFieldsOfStatus : Obligations.RstatAnswersTheFieldsOfStatus := by
  intro s
  refine ⟨_, exec_rstat s, ?_⟩
  simp only [statusWord, BitVec.extractLsb'_or]
  refine ⟨?_, ?_, ?_, ?_, ?_, ?_, ?_, ?_⟩
  · refine Eq.trans (b := s.block.phase.bits) (by simp [extract_field_same, extract_field_apart]) ?_
    cases s.block.phase <;> rfl
  · simp [getElem_field_bit, getElem_field_apart, emptyFlag_eq]
  · simp [getElem_field_bit, getElem_field_apart, singleFlag_eq]
  · simp [getElem_field_bit, getElem_field_apart]
  · simp [getElem_field_bit, getElem_field_apart]
  · simp [extract_field_apart]
  · simp [extract_field_same, extract_field_apart, nleafField]
  · simp [extract_field_apart]

theorem extract_errWord (b : Block) :
    (errWord b).extractLsb' 0 16 = b.ecmd ∧ (errWord b).extractLsb' 16 2 = b.ecode.bits ∧
      (errWord b).extractLsb' 18 14 = 0 := by
  simp [errWord, BitVec.extractLsb'_or, extract_field_same, extract_field_apart]

theorem bits_eq_zero_iff {code : Resp} : code.bits = 0 ↔ code = .ok := by
  cases code <;> decide

/-- `ERRW` is 0 exactly when both its fields are. -/
theorem errWord_eq_zero_iff {b : Block} : errWord b = 0 ↔ b.ecode = .ok ∧ b.ecmd = 0 := by
  constructor
  · intro h
    obtain ⟨hcmd, hcode, -⟩ := extract_errWord b
    rw [h] at hcmd hcode
    exact ⟨bits_eq_zero_iff.mp (by simpa using hcode.symm), by simpa using hcmd.symm⟩
  · rintro ⟨hcode, hcmd⟩
    simp [errWord, hcode, hcmd, Resp.bits, field]

/-- Settles O6: with a consistent error record `ECODE` is 0 exactly when no flag is set, and then `ECMD` is 0. -/
theorem rerrAnswersTheFieldsOfErrw : Obligations.RerrAnswersTheFieldsOfErrw := by
  intro s
  obtain ⟨hcmd, hcode, hzero⟩ := extract_errWord s.block
  refine ⟨_, exec_rerr s, hcmd, ?_, hzero, fun h => ?_⟩
  · rw [hcode]
    cases s.block.ecode <;> rfl
  · obtain ⟨hflags, hecmd, -⟩ := h.errors
    rw [errWord_eq_zero_iff, ← hflags]
    exact ⟨And.left, fun hok => ⟨hok, hecmd hok⟩⟩

/-! ### `ROOTW` -/

/-- A command whose rule leaves the block as it is: the read commands (20_memory.md R65). -/
theorem exec_read {i : Instr} {s : State} (hwf : i.wellFormed = true) (h : allowed i s.block.phase = true)
    (hread : okBlock i s.block s.block) : exec i s = .next (respondOk (okWord i s.block) s) :=
  exec_of_okBlock hwf h hread

theorem rootvFlag_eq {b : Block} (h : b.phase ≠ .load) : rootvFlag b = decide (1 ≤ b.nleaf.toNat) := by
  simp [rootvFlag, h]

theorem StateInv.root_of_no_leaf {s : State} (h : StateInv s) (hphase : s.block.phase ≠ .load)
    (hnleaf : s.block.nleaf.toNat = 0) : s.block.root = 0 := by
  obtain ⟨-, hn, hr⟩ := h.tree hphase
  rw [hr, buildTree_root_of_no_leaf (hn ▸ hnleaf)]

/-- Settles O45: `ROOTV` is 0 when `NLEAF` is, and then `BUILD` has left `ROOT` at 0. -/
theorem rrootAnswersTheFieldsOfRootw : Obligations.RrootAnswersTheFieldsOfRootw := by
  intro s hphase
  have hv : (rootWord s.block).getLsbD 9 = decide (1 ≤ s.block.nleaf.toNat) := by
    simp [rootWord, getElem_field_bit, getElem_field_apart, rootvFlag_eq hphase]
  refine ⟨_, exec_read rfl (bne_iff_ne.mpr hphase) rfl, ?_, hv, ?_, fun h hv0 => ?_⟩
  · simp [okWord, rootWord, BitVec.extractLsb'_or, extract_field_same, extract_field_apart]
  · simp [okWord, rootWord, BitVec.extractLsb'_or, extract_field_apart]
  · have hnleaf : s.block.nleaf.toNat = 0 := by
      simpa using hv.symm.trans hv0
    simp [okWord, rootWord, rootvFlag_eq hphase, hnleaf, h.root_of_no_leaf hphase hnleaf, bit, field, idxBits]

/-! ### `NINFO`, `NFL`, `NFH` -/

/-- Settles O46: each field of `NINFO` is read back from its own place. -/
theorem rnodeAnswersTheFieldsOfNinfo : Obligations.RnodeAnswersTheFieldsOfNinfo := by
  intro s n k hphase hn
  refine ⟨_, exec_read (nodeFieldOk_of_toNat_eq hn) (bne_iff_ne.mpr hphase) rfl, ?_⟩
  rw [okWord, nodeAt_of_toNat_eq hn]
  refine ⟨fun h => ?_, fun rep f h => ?_, fun rep f l r h => ?_⟩ <;> rw [h]
  · rfl
  · simp [ninfo, BitVec.extractLsb'_or, extract_field_same, extract_field_apart, getElem_field]
  · simp [ninfo, BitVec.extractLsb'_or, extract_field_same, extract_field_apart, getElem_field]

theorem nfh_eq_field (v : Node) : nfh (some v) = field (v.freq.extractLsb' 32 8) 0 := by
  simp [nfh, field]

theorem freq_toNat_eq (v : Node) : v.freq.toNat = (nfh (some v)).toNat * 2 ^ 32 + (nfl (some v)).toNat := by
  have := v.freq.isLt
  simp only [nfl, nfh, BitVec.toNat_setWidth, BitVec.extractLsb'_toNat, Nat.shiftRight_eq_div_pow]
  omega

/-- The host's `(NFH << 32) | NFL` is a sum, because `NFL` is less than 2^32. -/
theorem rnfreqValue_toNat {lo hi : Word} (h : hi.toNat < 2 ^ 8) :
    (rnfreqValue lo hi).toNat = hi.toNat * 2 ^ 32 + lo.toNat := by
  have hlo := lo.isLt
  have hhi : hi.toNat * 2 ^ 32 < 2 ^ 40 := by omega
  rw [rnfreqValue, BitVec.toNat_or, BitVec.toNat_shiftLeft, BitVec.toNat_setWidth_of_le (by omega),
    BitVec.toNat_setWidth_of_le (by omega), Nat.shiftLeft_eq, Nat.mod_eq_of_lt hhi, ← Nat.shiftLeft_eq,
    Nat.shiftLeft_add_eq_or_of_lt hlo]

theorem rnfreqValue_nfl_nfh (v : Node) : rnfreqValue (nfl (some v)) (nfh (some v)) = v.freq := by
  have hfreq := v.freq.isLt
  have hsum := freq_toNat_eq v
  exact BitVec.eq_of_toNat_eq ((rnfreqValue_toNat (by omega)).trans hsum.symm)

/-- Settles O47. -/
theorem rnflAndRnfhAnswerTheFrequency : Obligations.RnflAndRnfhAnswerTheFrequency := by
  intro s n k hphase hn
  refine ⟨_, _, exec_read (nodeFieldOk_of_toNat_eq hn) (bne_iff_ne.mpr hphase) rfl,
    exec_read (nodeFieldOk_of_toNat_eq hn) (bne_iff_ne.mpr hphase) rfl, ?_⟩
  rw [okWord, okWord, nodeAt_of_toNat_eq hn]
  refine ⟨fun h => ?_, fun v h => ?_⟩ <;> rw [h]
  · exact ⟨rfl, rfl⟩
  · refine ⟨rfl, ?_, ?_, freq_toNat_eq v, rnfreqValue_nfl_nfh v⟩
    · simp [nfh_eq_field, extract_field_same]
    · simp [nfh_eq_field, extract_field_apart]

/-! ### `CLENW` and `CBITSW` -/

/-- Settles O48. -/
theorem rclenAnswersTheFieldsOfClenw : Obligations.RclenAnswersTheFieldsOfClenw := by
  intro s c hphase
  refine ⟨_, exec_read rfl (by simp [allowed, hphase]) rfl, fun h => ?_, fun p h hp => ?_⟩ <;> rw [okWord, h]
  · rfl
  · have hlen : p.length % 256 = p.length := Nat.mod_eq_of_lt (by omega)
    simp [clenw, BitVec.extractLsb'_or, extract_field_same, extract_field_apart, getElem_field, hlen]

theorem symbolAt_eq (p : Path) (k : Nat) : symbolAt p k = if h : k < p.length then p[k] else false := by
  split <;> simp [symbolAt, *]

theorem getLsbD_symbolsFrom (p : Path) (base : Nat) {j : Nat} (hj : j < 32) :
    (symbolsFrom p base).getLsbD j = symbolAt p (base + j) := by
  rw [BitVec.getLsbD_eq_getElem hj, symbolsFrom, BitVec.getElem_ofFnLE]

/-- Settles O49: bit 31 of word 7 is symbol 255, which a path of at most 255 symbols does not have. -/
theorem rcbitsAnswersTheSymbols : Obligations.RcbitsAnswersTheSymbols := by
  intro s c w hphase
  refine ⟨_, exec_read rfl (by simp [allowed, hphase]) rfl, fun h => ?_, fun p h => ?_⟩ <;> rw [okWord, h]
  · rfl
  · have hbit {j : Nat} (hj : j < 32) := (getLsbD_symbolsFrom p (32 * w.toNat) hj).trans (symbolAt_eq p _)
    refine ⟨fun j hj => hbit hj, fun hp hw => (hbit (by decide)).trans ?_⟩
    subst hw
    exact dif_neg (Nat.not_lt.mpr hp)

end Sys2Proof.Machine

/-! PROOFS. What the read commands leave alone, and the node index that does not exist (20_memory.md R62, R65). -/

namespace Sys2Proof.Machine

/-- The rule of a read command leaves the block as it is. -/
theorem okBlock_of_isRead {i : Instr} (h : isRead i) (b : Block) : okBlock i b b := by
  cases i
  case clear | clrerr | wfreq | build | gen => exact h.elim
  all_goals rfl

/-- Settles O13: in an allowed phase a command with an existing index answers the word of its rule, and a read command's
rule leaves the block as it is. -/
theorem readsThatEndOkChangeNothing : Obligations.ReadsThatEndOkChangeNothing :=
  fun i s hread hwf hallowed => ⟨okWord i s.block, exec_read hwf hallowed (okBlock_of_isRead hread s.block)⟩

theorem not_wellFormed_of_index_511 {i : Instr} (h : i = .rnode 511 ∨ i = .rnfl 511 ∨ i = .rnfh 511) :
    i.wellFormed = false := by
  rcases h with rfl | rfl | rfl <;> decide

/-- Settles O16: the index is tested before the phase, so the answer is ILLEGAL in every phase. -/
theorem nodeIndex511IsIllegal : Obligations.NodeIndex511IsIllegal :=
  fun s _ h => exec_of_not_wellFormed s (not_wellFormed_of_index_511 h)

end Sys2Proof.Machine

/-! PROOFS. The encoder and the decoder: where each field of a command word stands (30_encoding.md R83, R85), and that
they undo one another (R88). -/

namespace Sys2Proof.Machine

/-! ### Command words as numbers -/

/-- A field above `lo` free low bits: the two parts stand apart, so the word is their sum. -/
theorem toNat_shiftLeft_or {m lo : Nat} (v : BitVec m) {low : CmdWord} (hm : m + lo ≤ 16)
    (hlow : low.toNat < 2 ^ lo) :
    (v.setWidth 16 <<< lo ||| low).toNat = v.toNat * 2 ^ lo + low.toNat := by
  have hfit : v.toNat * 2 ^ lo < 2 ^ 16 :=
    calc v.toNat * 2 ^ lo < 2 ^ m * 2 ^ lo := Nat.mul_lt_mul_of_pos_right v.isLt (Nat.two_pow_pos lo)
      _ = 2 ^ (m + lo) := (Nat.pow_add ..).symm
      _ ≤ 2 ^ 16 := Nat.pow_le_pow_right (by decide) hm
  rw [BitVec.toNat_or, BitVec.toNat_shiftLeft, BitVec.toNat_setWidth_of_le (by omega), Nat.shiftLeft_eq,
    Nat.mod_eq_of_lt hfit, ← Nat.shiftLeft_eq, Nat.shiftLeft_add_eq_or_of_lt hlow]

theorem wordN_toNat (op : BitVec 4) : (wordN op).toNat = op.toNat * 2 ^ 12 := by
  simpa [wordN] using toNat_shiftLeft_or op (low := 0) (lo := 12) (by decide) (by decide)

theorem wordC_toNat (op : BitVec 4) (c : CharCode) : (wordC op c).toNat = op.toNat * 2 ^ 12 + c.toNat := by
  have hc : (c.setWidth 16).toNat = c.toNat := BitVec.toNat_setWidth_of_le (by decide)
  rw [wordC, toNat_shiftLeft_or op (by decide) (by omega), hc]

theorem wordX_toNat (op : BitVec 4) (n : NodeField) : (wordX op n).toNat = op.toNat * 2 ^ 12 + n.toNat := by
  have hn : (n.setWidth 16).toNat = n.toNat := BitVec.toNat_setWidth_of_le (by decide)
  rw [wordX, toNat_shiftLeft_or op (by decide) (by omega), hn]

theorem wordW_toNat (op : BitVec 4) (c : CharCode) (w : WordSel) :
    (wordW op c w).toNat = op.toNat * 2 ^ 12 + w.toNat * 2 ^ 8 + c.toNat := by
  have hc : (c.setWidth 16).toNat = c.toNat := BitVec.toNat_setWidth_of_le (by decide)
  have hlow := toNat_shiftLeft_or w (low := c.setWidth 16) (lo := 8) (by decide) (by omega)
  rw [wordW, BitVec.or_assoc, toNat_shiftLeft_or op (by decide) (by omega), hlow, hc, Nat.add_assoc]

/-- Settles O20. -/
theorem commandWordsHoldTheirFieldsInPlace : Obligations.CommandWordsHoldTheirFieldsInPlace := by
  refine ⟨fun i h => ?_, fun c _ => wordC_toNat _ c, wordC_toNat _, wordC_toNat _, wordX_toNat _, wordX_toNat _,
    wordX_toNat _, wordW_toNat _⟩
  cases i
  case clear | clrerr | build | gen | rstat | rroot | rerr => exact wordN_toNat _
  all_goals cases h

/-! ### The fields of a word as numbers -/

theorem opField_toNat (cmd : CmdWord) : (opField cmd).toNat = cmd.toNat / 2 ^ 12 := by
  have := cmd.isLt
  simp only [opField, BitVec.extractLsb'_toNat, Nat.shiftRight_eq_div_pow]
  omega

theorem charField_toNat (cmd : CmdWord) : (charField cmd).toNat = cmd.toNat % 2 ^ 8 := by
  simp [charField]

theorem nodeField_toNat (cmd : CmdWord) : (nodeField cmd).toNat = cmd.toNat % 2 ^ 9 := by
  simp [nodeField]

theorem wordSelField_toNat (cmd : CmdWord) : (wordSelField cmd).toNat = cmd.toNat / 2 ^ 8 % 2 ^ 3 := by
  simp [wordSelField, Nat.shiftRight_eq_div_pow]

theorem extract_eq_zero_iff {cmd : CmdWord} {start len : Nat} :
    cmd.extractLsb' start len = 0 ↔ cmd.toNat / 2 ^ start % 2 ^ len = 0 := by
  simp [← BitVec.toNat_inj, Nat.shiftRight_eq_div_pow]

/-! ### Each format decodes what it encodes -/

theorem decodeN_wordN (op : BitVec 4) (i : Instr) : decodeN (wordN op) i = .ok i := by
  have hzero : argField (wordN op) = 0 := by
    rw [argField, extract_eq_zero_iff, wordN_toNat]
    omega
  exact if_pos hzero

theorem decodeC_wordC (op : BitVec 4) (c : CharCode) (mk : CharCode → Instr) :
    decodeC (wordC op c) mk = .ok (mk c) := by
  have hc := c.isLt
  have hzero : (wordC op c).extractLsb' 8 4 = 0 := by
    rw [extract_eq_zero_iff, wordC_toNat]
    omega
  have hchar : charField (wordC op c) = c := by
    rw [← BitVec.toNat_inj, charField_toNat, wordC_toNat]
    omega
  rw [decodeC, if_pos hzero, hchar]

theorem decodeX_wordX (op : BitVec 4) {n : NodeField} (mk : NodeField → Instr) (h : nodeFieldOk n = true) :
    decodeX (wordX op n) mk = .ok (mk n) := by
  have hn := n.isLt
  have hzero : (wordX op n).extractLsb' 9 3 = 0 := by
    rw [extract_eq_zero_iff, wordX_toNat]
    omega
  have hnode : nodeField (wordX op n) = n := by
    rw [← BitVec.toNat_inj, nodeField_toNat, wordX_toNat]
    omega
  rw [decodeX, if_pos hzero, hnode, if_pos h]

theorem decodeW_wordW (op : BitVec 4) (c : CharCode) (w : WordSel) (mk : CharCode → WordSel → Instr) :
    decodeW (wordW op c w) mk = .ok (mk c w) := by
  have hc := c.isLt
  have hw := w.isLt
  have hzero : (wordW op c w).extractLsb' 11 1 = 0 := by
    rw [extract_eq_zero_iff, wordW_toNat]
    omega
  have hchar : charField (wordW op c w) = c := by
    rw [← BitVec.toNat_inj, charField_toNat, wordW_toNat]
    omega
  have hsel : wordSelField (wordW op c w) = w := by
    rw [← BitVec.toNat_inj, wordSelField_toNat, wordW_toNat]
    omega
  rw [decodeW, if_pos hzero, hchar, hsel]

theorem opField_cmdOf (i : Instr) : opField (cmdOf i) = i.op := by
  cases i
  case wfreq c _ | rfreq c | rclen c => exact (Laws.Row.wordC_row _ c).2
  case rnode n | rnfl n | rnfh n => exact (Laws.Row.wordX_row _ n).2
  case rcbits c w => exact (Laws.Row.wordW_row _ c w).2
  all_goals rfl

/-- Settles O21: the opcode selects the command's own row, and its format reads the operands back. -/
theorem decodeGivesBackEveryEncodedCommand : Obligations.DecodeGivesBackEveryEncodedCommand := by
  intro i hwf
  rw [encode, decode, opField_cmdOf]
  cases i
  case wfreq | rfreq | rclen => exact decodeC_wordC ..
  case rnode | rnfl | rnfh => exact decodeX_wordX _ _ hwf
  case rcbits => exact decodeW_wordW ..
  all_goals exact decodeN_wordN ..

/-! ### Each format encodes what it decodes -/

section
variable {cmd : CmdWord} {op : Nat} (hop : (opField cmd).toNat = op)
include hop

theorem ofNat_eq_opField : BitVec.ofNat 4 op = opField cmd := by
  rw [← hop, BitVec.ofNat_toNat, BitVec.setWidth_eq]

theorem wordN_of_decodeN {i j : Instr} (h : decodeN cmd i = .ok j) : j = i ∧ wordN (.ofNat 4 op) = cmd := by
  rw [decodeN] at h
  split at h
  next hzero =>
    cases h
    refine ⟨rfl, ?_⟩
    rw [argField, extract_eq_zero_iff] at hzero
    rw [← BitVec.toNat_inj, wordN_toNat, ofNat_eq_opField hop, opField_toNat]
    omega
  next => cases h

theorem wordC_of_decodeC {mk : CharCode → Instr} {i : Instr} (h : decodeC cmd mk = .ok i) :
    ∃ c, i = mk c ∧ wordC (.ofNat 4 op) c = cmd := by
  rw [decodeC] at h
  split at h
  next hzero =>
    cases h
    refine ⟨_, rfl, ?_⟩
    rw [extract_eq_zero_iff] at hzero
    rw [← BitVec.toNat_inj, wordC_toNat, ofNat_eq_opField hop, opField_toNat, charField_toNat]
    omega
  next => cases h

theorem wordX_of_decodeX {mk : NodeField → Instr} {i : Instr} (h : decodeX cmd mk = .ok i) :
    ∃ n, i = mk n ∧ nodeFieldOk n = true ∧ wordX (.ofNat 4 op) n = cmd := by
  rw [decodeX] at h
  split at h
  next hzero =>
    split at h
    next hok =>
      cases h
      refine ⟨_, rfl, hok, ?_⟩
      rw [extract_eq_zero_iff] at hzero
      rw [← BitVec.toNat_inj, wordX_toNat, ofNat_eq_opField hop, opField_toNat, nodeField_toNat]
      omega
    next => cases h
  next => cases h

theorem wordW_of_decodeW {mk : CharCode → WordSel → Instr} {i : Instr} (h : decodeW cmd mk = .ok i) :
    ∃ c w, i = mk c w ∧ wordW (.ofNat 4 op) c w = cmd := by
  rw [decodeW] at h
  split at h
  next hzero =>
    cases h
    refine ⟨_, _, rfl, ?_⟩
    rw [extract_eq_zero_iff] at hzero
    rw [← BitVec.toNat_inj, wordW_toNat, ofNat_eq_opField hop, opField_toNat, charField_toNat,
      wordSelField_toNat]
    omega
  next => cases h

end

/-- Settles O22: each row of the decoder is inverted by its format, and the row of `WFREQ` alone takes `din`. The cases
are the opcodes in the order of `decode`. -/
theorem encodeGivesBackEveryLegalWord : Obligations.EncodeGivesBackEveryLegalWord := by
  intro cmd din i h
  rw [decode] at h
  split at h
  case h_3 hop =>
    obtain ⟨c, rfl, hcmd⟩ := wordC_of_decodeC hop h
    exact ⟨rfl, hcmd, fun _ => rfl⟩
  case h_4 hop | h_12 hop =>
    obtain ⟨c, rfl, hcmd⟩ := wordC_of_decodeC hop h
    exact ⟨rfl, hcmd, fun h3 => absurd (h3 ▸ hop) (by decide)⟩
  case h_9 hop | h_10 hop | h_11 hop =>
    obtain ⟨n, rfl, hok, hcmd⟩ := wordX_of_decodeX hop h
    exact ⟨hok, hcmd, fun h3 => absurd (h3 ▸ hop) (by decide)⟩
  case h_13 hop =>
    obtain ⟨c, w, rfl, hcmd⟩ := wordW_of_decodeW hop h
    exact ⟨rfl, hcmd, fun h3 => absurd (h3 ▸ hop) (by decide)⟩
  case h_1 hop | h_2 hop | h_5 hop | h_6 hop | h_7 hop | h_8 hop | h_14 hop =>
    obtain ⟨rfl, hcmd⟩ := wordN_of_decodeN hop h
    exact ⟨rfl, hcmd, fun h3 => absurd (h3 ▸ hop) (by decide)⟩
  case h_15 => cases h

/-! ### What a step makes of a word -/

theorem decode_din_irrelevant {cmd : CmdWord} (h : opField cmd ≠ 3) (d1 d2 : Word) :
    decode cmd d1 = decode cmd d2 := by
  unfold decode
  split
  case h_3 hop => exact absurd (BitVec.eq_of_toNat_eq hop) h
  all_goals rfl

/-- Settles O24. -/
theorem dataInIsIgnoredExceptByWfreq : Obligations.DataInIsIgnoredExceptByWfreq := by
  intro cmd d1 d2 s es h
  rw [step_of_command rfl, step_of_command rfl, stepCommand, stepCommand, decode_din_irrelevant h d1 d2]

/-- Settles O25, by computation on the eleven words. -/
theorem sampleWordsDecode : Obligations.SampleWordsDecode := by
  unfold Obligations.SampleWordsDecode
  decide

theorem stepCommand_of_decode_ok {cmd : CmdWord} {din : Word} {i : Instr} (h : decode cmd din = .ok i) (s : State) :
    stepCommand cmd din s = exec i s := by
  rw [stepCommand, h]

/-- Settles O26. -/
theorem stepRunsTheDecodedCommand : Obligations.StepRunsTheDecodedCommand :=
  ⟨fun _ _ _ _ _ hp hi => (step_of_command hp).trans (stepCommand_of_decode_ok hi _),
    fun _ hp => step_of_nothing_pending hp⟩

theorem okWord_of_not_isRead {i : Instr} (h : ¬ isRead i) (b : Block) : okWord i b = 0 := by
  cases i
  case clear | clrerr | wfreq | build | gen => rfl
  all_goals exact absurd trivial h

/-- Settles O19: an error answers 0, and a command that ends OK answers the word of its rule. -/
theorem oneResponsePerCommandInOrder : Obligations.OneResponsePerCommandInOrder := by
  intro s t cmd din es hp h
  rw [step_of_command hp, stepCommand] at h
  split at h
  next i hi =>
    rcases exec_next_cases h with ⟨-, rfl⟩ | ⟨-, -, rfl⟩ | ⟨-, -, b, -, rfl⟩
    · exact ⟨_, rfl, rfl, fun _ => rfl, fun _ _ _ => rfl⟩
    · exact ⟨_, rfl, rfl, fun _ => rfl, fun _ _ _ => rfl⟩
    · refine ⟨_, rfl, rfl, fun hcode => absurd rfl hcode, fun j hj hread => ?_⟩
      cases hi.symm.trans hj
      exact okWord_of_not_isRead hread _
  next =>
    cases h
    exact ⟨_, rfl, rfl, fun _ => rfl, fun _ _ _ => rfl⟩

end Sys2Proof.Machine

/-! PROOFS. The assembler: an accepted line spells well-formed commands, and what the host reads back with `RCODE`
(30_encoding.md R94, R95). -/

namespace Sys2Proof.Machine

/-! ### `RCODE` -/

theorem getElem?_allWordSels {k : Nat} (h : k < 8) : allWordSels[k]? = some (.ofNat 3 k) := by
  simp [allWordSels, h]

/-- Symbol `i` is bit `i % 32` of word `i / 32` of the eight. -/
theorem getLsbD_cbitsw (p : Path) {i : Nat} (h : i < 256) :
    ((allWordSels.map (fun w => cbitsw (some p) w)).getD (i / 32) 0).getLsbD (i % 32) = symbolAt p i := by
  have hword : i / 32 < 8 := by omega
  have hi : 32 * (i / 32 % 8) + i % 32 = i := by omega
  rw [List.getD_eq_getElem?_getD, List.getElem?_map, getElem?_allWordSels hword, Option.map_some, Option.getD_some,
    cbitsw, getLsbD_symbolsFrom p _ (Nat.mod_lt i (by decide)), BitVec.toNat_ofNat, hi]

theorem clenw_fields {p : Path} (h : p.length ≤ 255) :
    (clenw (some p)).getLsbD 8 = true ∧ ((clenw (some p)).extractLsb' 0 8).toNat = p.length := by
  have hlen : p.length % 256 = p.length := Nat.mod_eq_of_lt (by omega)
  simp [clenw, BitVec.extractLsb'_or, extract_field_same, extract_field_apart, getElem_field, hlen]

/-- Settles O50: a present code has as many symbols as its length word says, each where its word of symbols has it. -/
theorem rcodeReadsBackTheStoredCode : Obligations.RcodeReadsBackTheStoredCode := by
  intro slot h
  cases slot with
  | none => rfl
  | some p =>
    have hp := h p rfl
    obtain ⟨hpresent, hlen⟩ := clenw_fields hp
    rw [rcodeValue, if_pos hpresent, hlen]
    refine congrArg some (List.ext_getElem (by simp) fun i hi hip => ?_)
    rw [List.getElem_map, List.getElem_range, getLsbD_cbitsw p (by omega), symbolAt_eq, dif_pos hip]

/-! ### The lines the parser accepts -/

/-- Every command a line stands for is one that a legal word spells. -/
def legalLine (l : AsmLine) : Prop := ∀ i ∈ lineCommands l, i.wellFormed = true

theorem legalLine_command {i : Instr} (h : i.wellFormed = true) : legalLine (.command i) :=
  List.forall_mem_singleton.mpr h

theorem legalLine_raw (x : CmdWord) (v : Word) : legalLine (.raw x v) := nofun

theorem legalLine_ldtab (entries : List (CharCode × Word)) : legalLine (.ldtab entries) :=
  List.forall_mem_cons.mpr ⟨rfl, List.forall_mem_map.mpr fun _ _ => rfl⟩

theorem legalLine_mkcodes : legalLine .mkcodes :=
  List.forall_mem_cons.mpr ⟨rfl, List.forall_mem_singleton.mpr rfl⟩

theorem legalLine_rnfreq {n : NodeField} (h : nodeFieldOk n = true) : legalLine (.rnfreq n) :=
  List.forall_mem_cons.mpr ⟨h, List.forall_mem_singleton.mpr h⟩

theorem legalLine_rcode (c : CharCode) : legalLine (.rcode c) :=
  List.forall_mem_cons.mpr ⟨rfl, List.forall_mem_map.mpr fun _ _ => rfl⟩

theorem nodeFieldOk_of_nodeOperand {n : Nat} {f : NodeField} (h : nodeOperand n = .ok f) : nodeFieldOk f = true := by
  unfold nodeOperand at h
  split at h
  · cases h
    rw [nodeFieldOk, decide_eq_true_eq, BitVec.toNat_ofNat]
    omega
  · cases h

theorem exists_of_bind_eq_ok {α β : Type} {x : Except AsmError α} {f : α → Except AsmError β} {b : β}
    (h : x >>= f = .ok b) : ∃ a, x = .ok a ∧ f a = .ok b := by
  cases x with
  | error e => cases h
  | ok a => exact ⟨a, rfl, h⟩

theorem legalLine_of_parseN {l l' : AsmLine} {ops : List Token} (h : parseN l ops = .ok l') (hl : legalLine l) :
    legalLine l' := by
  unfold parseN at h
  split at h
  · cases h
    exact hl
  · cases h

theorem legalLine_of_parseOne {α : Type} {read : Nat → Except AsmError α} {mk : α → AsmLine} {ops : List Token}
    {l : AsmLine} (h : parseOne read mk ops = .ok l) (hmk : ∀ n a, read n = .ok a → legalLine (mk a)) :
    legalLine l := by
  unfold parseOne at h
  split at h
  next n =>
    obtain ⟨a, ha, hl⟩ := exists_of_bind_eq_ok h
    cases hl
    exact hmk n a ha
  next => cases h

theorem legalLine_of_parseTwo {α β : Type} {readA : Nat → Except AsmError α} {readB : Nat → Except AsmError β}
    {mk : α → β → AsmLine} {ops : List Token} {l : AsmLine} (h : parseTwo readA readB mk ops = .ok l)
    (hmk : ∀ a b, legalLine (mk a b)) : legalLine l := by
  unfold parseTwo at h
  split at h
  next m n =>
    obtain ⟨a, -, hrest⟩ := exists_of_bind_eq_ok h
    obtain ⟨b, -, hl⟩ := exists_of_bind_eq_ok hrest
    cases hl
    exact hmk a b
  next => cases h

theorem legalLine_of_parseWord {ops : List Token} {l : AsmLine} (h : parseWord ops = .ok l) : legalLine l := by
  unfold parseWord at h
  split at h
  next n =>
    exact legalLine_of_parseOne (mk := (.raw · 0)) (ops := [.num n]) h fun _ _ _ => legalLine_raw _ 0
  next => exact legalLine_of_parseTwo h legalLine_raw

/-- The cases are the mnemonics in the order of `parseOperands`; only a node index needs its range check. -/
theorem legalLine_of_parseOperands {mnemonic : String} {ops : List Token} {l : AsmLine}
    (h : parseOperands mnemonic ops = .ok l) : legalLine l := by
  unfold parseOperands at h
  split at h
  case h_1 | h_2 | h_5 | h_6 | h_7 | h_8 | h_14 => exact legalLine_of_parseN h (legalLine_command rfl)
  case h_3 | h_13 => exact legalLine_of_parseTwo h fun _ _ => legalLine_command rfl
  case h_4 | h_12 => exact legalLine_of_parseOne h fun _ _ _ => legalLine_command rfl
  case h_9 | h_10 | h_11 =>
    exact legalLine_of_parseOne h fun _ _ hn => legalLine_command (nodeFieldOk_of_nodeOperand hn)
  case h_15 => exact legalLine_of_parseWord h
  case h_16 =>
    obtain ⟨entries, -, hl⟩ := exists_of_bind_eq_ok h
    cases hl
    exact legalLine_ldtab entries
  case h_17 => exact legalLine_of_parseN h legalLine_mkcodes
  case h_18 => exact legalLine_of_parseOne h fun _ _ hn => legalLine_rnfreq (nodeFieldOk_of_nodeOperand hn)
  case h_19 => exact legalLine_of_parseOne h fun _ c _ => legalLine_rcode c
  case h_20 => cases h

theorem legalLine_of_parseLine {text : List Char} {l : AsmLine} (h : parseLine text = .ok (some l)) : legalLine l := by
  unfold parseLine at h
  split at h
  next => cases h
  next => cases h
  next w ops _ =>
    split at h
    next l' hl' => cases h; exact legalLine_of_parseOperands hl'
    next => cases h
  next => cases h

theorem emitLine_eq {l : AsmLine} (h : ∀ x v, l ≠ .raw x v) : emitLine l = (lineCommands l).map encode := by
  cases l
  case raw x v => exact absurd rfl (h x v)
  all_goals rfl

/-- Settles O51: what an accepted line emits are encodings of well-formed commands, which decode to those commands. -/
theorem assemblerEmitsLegalWordsOnly : Obligations.AssemblerEmitsLegalWordsOnly := by
  intro text l hl hraw p hp
  rw [emitLine_eq hraw] at hp
  obtain ⟨i, hi, rfl⟩ := List.mem_map.mp hp
  exact ⟨i, decodeGivesBackEveryEncodedCommand i (legalLine_of_parseLine hl i hi)⟩

end Sys2Proof.Machine

/-! PROOFS. The frequency table: what `WFREQ` and `RFREQ` do to the state, and what a run of `LDTAB` leaves in `FREQ`
(40_freq_table.md R111 to R113, 30_encoding.md R95). -/

namespace Sys2Proof.Machine

/-! ### The two commands -/

theorem exec_wfreq (c : CharCode) (v : Word) (s : State) :
    exec (.wfreq c v) s = .next (respondOk 0 (onBlock (wfreqBlock c v) s)) := rfl

theorem exec_rfreq (c : CharCode) (s : State) : exec (.rfreq c) s = .next (respondOk (readFreq s.block.freq c) s) := rfl

/-- Settles O8: every phase allows `RFREQ`, so its rule runs. -/
theorem rfreqAnswersTheEntry : Obligations.RfreqAnswersTheEntry := exec_rfreq

/-- Settles O7: every phase allows `WFREQ`, and what it writes is read back at its own entry alone. -/
theorem wfreqWritesOneEntryAndInvalidates : Obligations.WfreqWritesOneEntryAndInvalidates :=
  fun c v s => ⟨writeFreq s.block.freq c v, exec_wfreq c v s, (readFreq_writeFreq ..).trans (if_pos rfl),
    fun _ hd => (readFreq_writeFreq ..).trans (if_neg hd.symm)⟩

/-! ### What a list of entries leaves for one character -/

/-- The value of entry `c` after the entries of the list are written in order over a table that gives it `v`. -/
def writtenOver (entries : List (CharCode × Word)) (c : CharCode) (v : Freq) : Freq :=
  entries.foldl (fun v e => if e.1 = c then e.2 else v) v

theorem writtenOver_cons (e : CharCode × Word) (entries : List (CharCode × Word)) (c : CharCode) (v : Freq) :
    writtenOver (e :: entries) c v = writtenOver entries c (if e.1 = c then e.2 else v) := rfl

theorem lastWritten_eq_writtenOver (entries : List (CharCode × Word)) (c : CharCode) :
    lastWritten entries c = writtenOver entries c 0 := rfl

/-- Entries that are all of the table `T` leave `T c` where it stood before, and where one of them is for `c`. -/
theorem writtenOver_eq_of_table {T : CharCode → Freq} {entries : List (CharCode × Word)} {c : CharCode} {v : Freq}
    (hT : ∀ e ∈ entries, e.2 = T e.1) (hc : v = T c ∨ ∃ e ∈ entries, e.1 = c) : writtenOver entries c v = T c := by
  induction entries generalizing v with
  | nil => exact hc.resolve_right nofun
  | cons e entries ih =>
    obtain ⟨he, hentries⟩ := List.forall_mem_cons.mp hT
    rw [writtenOver_cons]
    by_cases hec : e.1 = c
    · exact ih hentries (.inl (by rw [if_pos hec, he, hec]))
    · rw [if_neg hec]
      exact ih hentries (hc.imp_right fun h => by simpa [hec] using h)

/-- A list that gives every non-zero entry of a table, and only values of it, leaves the table (R113). -/
theorem lastWritten_eq_of_table {T : CharCode → Freq} {entries : List (CharCode × Word)}
    (hT : ∀ e ∈ entries, e.2 = T e.1) (hall : ∀ c, T c ≠ 0 → ∃ e ∈ entries, e.1 = c) (c : CharCode) :
    lastWritten entries c = T c :=
  (lastWritten_eq_writtenOver ..).trans (writtenOver_eq_of_table hT ((eq_or_ne (T c) 0).imp Eq.symm (hall c)))

/-! ### A run of `LDTAB` -/

/-- The event of the host that sends a command. -/
def sendCommand (i : Instr) : Event := .command (cmdOf i) (dinOf i)

theorem sendLine_ldtab (entries : List (CharCode × Word)) :
    sendLine (.ldtab entries) = sendCommand .clear :: (writeEntries entries).map sendCommand := by
  simp [sendLine, emitLine, lineCommands, sendCommand, encode]

theorem step_of_sendCommand {i : Instr} {s : State} {es : List Event} (hwf : i.wellFormed = true)
    (hp : s.pending = sendCommand i :: es) : step s = exec i { s with pending := es } :=
  (step_of_command hp).trans (stepCommand_of_decode_ok (decodeGivesBackEveryEncodedCommand i hwf) _)

theorem runSteps_succ_of_step {s t : State} (h : step s = .next t) (k : Nat) :
    runSteps (k + 1) s = runSteps k t := by
  rw [runSteps, h]

/-- The `WFREQ` commands of a list, run from phase LOAD, write its entries over the present table. -/
theorem runSteps_writeEntries (entries : List (CharCode × Word)) {s : State} {es : List Event}
    (hp : s.pending = (writeEntries entries).map sendCommand ++ es) (hphase : s.block.phase = .load) :
    ∃ t, runSteps entries.length s = .next t ∧ t.pending = es ∧ t.block.phase = .load ∧
      ∀ c, readFreq t.block.freq c = writtenOver entries c (readFreq s.block.freq c) := by
  induction entries generalizing s with
  | nil => exact ⟨s, rfl, hp, hphase, fun _ => rfl⟩
  | cons e entries ih =>
    have hstep := (step_of_sendCommand rfl hp).trans (exec_wfreq e.1 e.2 _)
    obtain ⟨t, hrun, hpending, htphase, hfreq⟩ := ih (s := respondOk 0 (onBlock (wfreqBlock e.1 e.2)
      { s with pending := (writeEntries entries).map sendCommand ++ es })) rfl rfl
    refine ⟨t, (runSteps_succ_of_step hstep _).trans hrun, hpending, htphase, fun c => ?_⟩
    rw [hfreq, writtenOver_cons, respondOk_block, onBlock_block, wfreqBlock_freq, readFreq_writeFreq]

/-- Settles O10: `CLEAR` empties the table, and the entries are written over the empty one. -/
theorem ldtabLoadsTheTable : Obligations.LdtabLoadsTheTable := by
  intro entries s es hp
  rw [sendLine_ldtab] at hp
  have hstep := (step_of_sendCommand rfl hp).trans (exec_clear _)
  obtain ⟨t, hrun, hpending, hphase, hfreq⟩ := runSteps_writeEntries entries (s := respondOk 0 (onBlock resetBlock
    { s with pending := (writeEntries entries).map sendCommand ++ es })) rfl rfl
  have hlast : ∀ c, readFreq t.block.freq c = lastWritten entries c :=
    fun c => (hfreq c).trans (lastWritten_eq_writtenOver ..).symm
  exact ⟨t, (runSteps_succ_of_step hstep _).trans hrun, hpending, hphase, hlast,
    fun T hT hall c => (hlast c).trans (lastWritten_eq_of_table hT hall c)⟩

end Sys2Proof.Machine

/-! PROOFS. The order of nodes, selection by it, and what `BUILD` reads and writes (41_tree_build.md R121 to R124,
R137). -/

namespace Sys2Proof.Machine

/-! ### The comparator -/

theorem Node.lt_iff {a b : Node} : a.lt b = true ↔
    a.freq.toNat < b.freq.toNat ∨ (a.freq.toNat = b.freq.toNat ∧ a.rep.toNat < b.rep.toNat) := by
  simp [Node.lt, BitVec.lt_def, ← BitVec.toNat_inj]

theorem Node.lt_irrefl (a : Node) : a.lt a = false := by
  simp [Bool.eq_false_iff, Node.lt_iff]

theorem Node.lt_trans {a b c : Node} (hab : a.lt b = true) (hbc : b.lt c = true) : a.lt c = true := by
  rw [Node.lt_iff] at hab hbc ⊢
  omega

theorem Node.lt_asymm {a b : Node} (h : a.lt b = true) : b.lt a = false :=
  Bool.eq_false_iff.mpr fun h' => by simpa [Node.lt_irrefl] using Node.lt_trans h h'

theorem Node.lt_total {a b : Node} (h : a.rep ≠ b.rep) : a.lt b = true ∨ b.lt a = true := by
  have hrep : a.rep.toNat ≠ b.rep.toNat := BitVec.toNat_inj.not.mpr h
  simp only [Node.lt_iff]
  omega

/-- Settles O29. -/
theorem comparatorIsAStrictTotalOrder : Obligations.ComparatorIsAStrictTotalOrder :=
  ⟨fun _ _ => Node.lt_iff, Node.lt_irrefl, fun _ _ _ => Node.lt_trans, fun _ _ h =>
    (Node.lt_total h).imp (fun h => ⟨h, Node.lt_asymm h⟩) (fun h => ⟨Node.lt_asymm h, h⟩)⟩

/-! ### Selection -/

theorem takeLeast_least {w : List Entry} {m : Entry} {rest : List Entry}
    (hreps : (w.map (fun e => e.node.rep)).Nodup) (h : takeLeast w = some (m, rest)) :
    ∀ x ∈ rest, m.node.lt x.node = true := by
  induction w generalizing m rest with
  | nil => cases h
  | cons x xs ih =>
    rw [List.map_cons, List.nodup_cons] at hreps
    obtain ⟨hx, hxs⟩ := hreps
    rw [takeLeast] at h
    split at h
    next => cases h; exact fun _ => nofun
    next m' rest' hm' =>
      have hmem : m' ∈ xs := (takeLeast_perm hm').mem_iff.mpr (List.mem_cons_self ..)
      have hne : x.node.rep ≠ m'.node.rep := fun he => hx (he ▸ List.mem_map_of_mem hmem)
      split at h
      next hlt =>
        cases h
        exact List.forall_mem_cons.mpr ⟨hlt, fun y hy => Node.lt_trans hlt (ih hxs hm' y hy)⟩
      next hnlt =>
        cases h
        exact List.forall_mem_cons.mpr ⟨(Node.lt_total hne).resolve_left hnlt, ih hxs hm'⟩

/-- Settles O30. -/
theorem selectionYieldsTheUniqueLeast : Obligations.SelectionYieldsTheUniqueLeast := by
  intro w hw hreps
  obtain ⟨⟨m, rest⟩, h⟩ := Option.ne_none_iff_exists'.mp (takeLeast_eq_none.not.mpr hw)
  exact ⟨m, rest, h, takeLeast_perm h, takeLeast_least hreps h⟩

/-! ### What `BUILD` reads and writes -/

/-- Settles O27. -/
theorem buildCompletesAndWritesTheTreeOnly : Obligations.BuildCompletesAndWritesTheTreeOnly :=
  fun s => ⟨_, _, _, exec_build s⟩

theorem block_of_exec_build {s t : State} (h : exec .build s = .next t) : t.block = buildBlock s.block := by
  rw [exec_build] at h
  cases h
  rfl

/-- INIT reads `FREQ` by its entries, and the loop does not read it. -/
theorem buildTree_congr {f f' : FreqStore} (h : ∀ c, readFreq f c = readFreq f' c) : buildTree f = buildTree f' := by
  have hchar : initChar f = initChar f' := by
    funext w c
    rw [initChar, initChar, h c]
  have hinit : initWork f = initWork f' := by rw [initWork, initWork, hchar]
  rw [buildTree, buildTree, builtWork, builtWork, hinit]

/-- Settles O28. -/
theorem buildDependsOnTheFrequenciesAlone : Obligations.BuildDependsOnTheFrequenciesAlone := by
  intro s s' t t' hfreq ht ht'
  rw [block_of_exec_build ht, block_of_exec_build ht']
  simp [buildTree_congr hfreq]

/-- Settles O40: outside LOAD the block holds the tree of the present `FREQ`, and in CODES the codes of that tree. -/
theorem rebuildingChangesNoResult : Obligations.RebuildingChangesNoResult := by
  refine fun s t h => ⟨fun hphase ht => ?_, fun hphase ht => ?_⟩
  · obtain ⟨hnode, hnleaf, hroot⟩ := h.tree hphase
    rw [block_of_exec_build ht]
    exact ⟨hnode.symm, hnleaf.symm, hroot.symm⟩
  · have hsame : okBlock .gen s.block s.block :=
      ⟨s.block.code, h.codes hphase, by rw [genBlock, ← hphase]⟩
    rw [exec_of_okBlock rfl (by rw [hphase]; rfl) hsame] at ht
    cases ht
    rfl

end Sys2Proof.Machine

/-! PROOFS. How many slots `BUILD` fills (41_tree_build.md R130). -/

namespace Sys2Proof.Machine

/-! ### The length of the node store -/

theorem storeInsert_length {α : Type} {st : List (Nat × α)} {i : Nat} (h : storeFind st i = none) (v : α) :
    (storeInsert st i v).length = st.length + 1 := by
  induction st with
  | nil => rfl
  | cons e rest ih =>
    obtain ⟨k, w⟩ := e
    rw [storeFind] at h
    split at h
    · cases h
    next hk =>
      rw [storeInsert, if_neg hk]
      split
      · rw [List.length_cons, ih h, List.length_cons]
      · rfl

theorem writeNode_length {ns : NodeStore} {n : Idx} (h : readNode ns n = none) (v : Node) :
    (writeNode ns n v).length = ns.length + 1 := storeInsert_length h v

/-- INIT lists each leaf once in `NODE` and once in the working set. -/
theorem initFold_node_length (f : FreqStore) {cs : List CharCode} {w : Work} (hcs : cs.Nodup)
    (hfresh : ∀ c ∈ cs, readNode w.node (leafSlot c) = none) (hw : w.node.length = w.queue.length) :
    (cs.foldl (initChar f) w).node.length = (cs.foldl (initChar f) w).queue.length := by
  induction cs generalizing w with
  | nil => exact hw
  | cons c cs ih =>
    obtain ⟨hc, hcs⟩ := List.nodup_cons.mp hcs
    obtain ⟨hfree, hfresh⟩ := List.forall_mem_cons.mp hfresh
    rw [List.foldl_cons]
    by_cases hf : readFreq f c = 0
    · rw [initChar, if_pos hf]
      exact ih hcs hfresh hw
    · rw [initChar, if_neg hf]
      refine ih hcs (fun d hd => ?_) ?_
      · have hne : leafSlot c ≠ leafSlot d := fun he => hc (leafSlot_inj.mp he ▸ hd)
        rw [readNode_writeNode, if_neg hne, hfresh d hd]
      · rw [writeNode_length hfree, hw, List.length_cons]

theorem initWork_node_length (f : FreqStore) : (initWork f).node.length = presentCount f :=
  (initFold_node_length f allChars_nodup (fun _ _ => rfl) rfl).trans (initWork_queue_length f)

/-- One pass fills a free slot. -/
theorem combineOnce_node_length {f : FreqStore} {w w' : Work} (hw : BuildInv f w) (h : combineOnce w = some w') :
    w'.node.length = w.node.length + 1 := by
  obtain ⟨a, b, rest, rest', hn, -, -, rfl⟩ := combineOnce_eq_some h
  exact writeNode_length (hw.unused _ (Nat.le_refl _)) _

/-- A pass adds one filled slot and takes one node from the working set, so the two together stay the same. -/
theorem builtWork_node_length (f : FreqStore) :
    (builtWork f).node.length + (builtWork f).queue.length = 2 * presentCount f := by
  refine (combineLoop_keeps
    (P := fun w => BuildInv f w ∧ w.node.length + w.queue.length = 2 * presentCount f) ?_ _ _ ?_).2
  · intro w w' ⟨hw, hlen⟩ h
    have := combineOnce_length h
    have := combineOnce_node_length hw h
    exact ⟨buildInv_combineOnce hw h, by omega⟩
  · refine ⟨buildInv_initWork f, ?_⟩
    rw [initWork_node_length, initWork_queue_length]
    omega

theorem buildTree_node_length (f : FreqStore) : (buildTree f).node.length = 2 * presentCount f - 1 := by
  have := builtWork_node_length f
  rw [builtWork_queue_length] at this
  simp only [buildTree]
  omega

/-- Settles O31: the counts of `BuildInv` at the end of the loop, and the slots that INIT and the passes fill. -/
theorem buildRunsToOneNodeAndCountsItsSlots : Obligations.BuildRunsToOneNodeAndCountsItsSlots := by
  intro f
  have hle := presentCount_le f
  rw [buildTree_nleaf]
  refine ⟨rfl, hle, builtWork_queue_length f, builtWork_next f, ?_, buildTree_node_length f⟩
  rw [builtWork_next]
  omega

end Sys2Proof.Machine

/-! PROOFS. What each combination of `BUILD` computes (41_tree_build.md R125, R126, R128, R134). -/

namespace Sys2Proof.Machine

/-! ### A node written into a free slot -/

/-- Writing into a slot that holds nothing keeps every node. -/
theorem readNode_writeNode_of_free {ns : NodeStore} {n m : Idx} {v : Node} (hn : readNode ns n = none)
    (hm : readNode ns m = some v) (x : Node) : readNode (writeNode ns n x) m = some v := by
  have hne : n ≠ m := by
    rintro rfl
    rw [hn] at hm
    cases hm
  rw [readNode_writeNode, if_neg hne, hm]

theorem readNode_writeNode_cases {ns : NodeStore} {n m : Idx} {v x : Node}
    (h : readNode (writeNode ns n x) m = some v) : n = m ∧ x = v ∨ readNode ns m = some v := by
  rw [readNode_writeNode] at h
  split at h
  · exact .inl ⟨‹_›, Option.some.inj h⟩
  · exact .inr h

/-! ### Sums of counts -/

theorem sum_filter_readFreq (f : FreqStore) (cs : List CharCode) :
    ((cs.filter (fun c => readFreq f c != 0)).map (fun c => (readFreq f c).toNat)).sum =
      (cs.map (fun c => (readFreq f c).toNat)).sum := by
  induction cs with
  | nil => rfl
  | cons c cs ih =>
    by_cases hc : readFreq f c = 0
    · simpa [hc] using ih
    · have hne : (readFreq f c != 0) = true := bne_iff_ne.mpr hc
      rw [List.filter_cons, if_pos hne, List.map_cons, List.sum_cons, ih, List.map_cons, List.sum_cons]

/-- 256 counts of 32 bits have a sum of 40 bits (41_tree_build.md R126). -/
theorem totalCount_lt (f : FreqStore) : totalCount f < 2 ^ 40 := by
  have hle : totalCount f ≤ (allChars.map (fun c => (readFreq f c).toNat)).length • (2 ^ 32 - 1) :=
    List.sum_le_card_nsmul _ _ <| List.forall_mem_map.mpr fun c _ => by have := (readFreq f c).isLt; omega
  simp only [List.length_map, allChars, List.length_range, Config.nchar, smul_eq_mul] at hle
  omega

theorem leafNode_freq_toNat (c : CharCode) (v : Freq) : (leafNode c v).freq.toNat = v.toNat :=
  BitVec.toNat_setWidth_of_le (by decide)

/-! ### The combined nodes during the loop -/

/-- The node fields are those of R125 for the children in slots `l` and `r`: the sum of their frequencies as numbers,
the lesser of their representative characters, and the lesser child on the left. -/
def CombinesChildren (ns : NodeStore) (rep : CharCode) (fr : FreqSum) (l r : Idx) : Prop :=
  ∃ a b, readNode ns l = some a ∧ readNode ns r = some b ∧ fr.toNat = a.freq.toNat + b.freq.toNat ∧
    rep.toNat = min a.rep.toNat b.rep.toNat ∧ a.lt b = true

theorem CombinesChildren.writeNode {ns : NodeStore} {rep : CharCode} {fr : FreqSum} {l r n : Idx}
    (h : CombinesChildren ns rep fr l r) (hn : readNode ns n = none) (x : Node) :
    CombinesChildren (writeNode ns n x) rep fr l r := by
  obtain ⟨a, b, ha, hb, hrest⟩ := h
  exact ⟨a, b, readNode_writeNode_of_free hn ha x, readNode_writeNode_of_free hn hb x, hrest⟩

/-- The frequency of the nodes in a working set, as a number. -/
def queueCount (q : List Entry) : Nat := (q.map (fun e => e.node.freq.toNat)).sum

@[simp] theorem queueCount_cons (e : Entry) (q : List Entry) :
    queueCount (e :: q) = e.node.freq.toNat + queueCount q := by
  simp [queueCount]

theorem queueCount_perm {q q' : List Entry} (h : q.Perm q') : queueCount q = queueCount q' := (h.map _).sum_eq

/-- What every pass keeps beside `BuildInv`: the working set has pairwise different representative characters (R128)
and holds all counts, no node has frequency 0, and each internal node combines its children (R125). -/
structure CombineInv (f : FreqStore) (w : Work) : Prop where
  reps : (w.queue.map (fun e => e.node.rep)).Nodup
  total : queueCount w.queue = totalCount f
  positive : ∀ (n : Idx) v, readNode w.node n = some v → v.freq.toNat ≠ 0
  combined : ∀ (n : Idx) rep fr l r, readNode w.node n = some (.internal rep fr l r) →
    CombinesChildren w.node rep fr l r

theorem combineInv_initWork (f : FreqStore) : CombineInv f (initWork f) where
  reps := by
    have hid : ((fun e : Entry => e.node.rep) ∘ fun c => ⟨leafSlot c, leafNode c (readFreq f c)⟩) = id := rfl
    rw [initWork_queue, List.map_reverse, List.map_map, hid, List.map_id, List.nodup_reverse]
    exact allChars_nodup.filter _
  total := by
    rw [queueCount, initWork_queue, List.map_reverse, List.sum_reverse, List.map_map, totalCount,
      ← sum_filter_readFreq]
    exact congrArg List.sum (List.map_congr_left fun c _ => leafNode_freq_toNat c _)
  positive n v h := by
    rcases Nat.lt_or_ge n.val 256 with hn | hn
    · obtain ⟨c, rfl⟩ := exists_leafSlot_eq hn
      rw [initWork_leaf] at h
      split at h
      · cases h
      next hc =>
        cases h
        rw [leafNode_freq_toNat]
        exact fun h0 => hc (BitVec.eq_of_toNat_eq h0)
    · rw [initWork_internal f n hn] at h
      cases h
  combined n rep fr l r h := absurd h initWork_not_internal

/-- One pass in terms of the working set: it is the two nodes taken and the rest, the first less than the second and
both apart from the rest. -/
theorem combineOnce_selects {f : FreqStore} {w w' : Work} (hw : CombineInv f w) (h : combineOnce w = some w') :
    ∃ a b rest, ∃ hn : w.next < 511,
      w.queue.Perm (a :: b :: rest) ∧ a.node.lt b.node = true ∧
      w' = { queue := { slot := ⟨w.next, hn⟩, node := combineNodes a b } :: rest
             node := writeNode w.node ⟨w.next, hn⟩ (combineNodes a b)
             next := w.next + 1 } := by
  obtain ⟨a, b, rest, rest', hn, ha, hb, rfl⟩ := combineOnce_eq_some h
  have hbmem : b ∈ rest := (takeLeast_perm hb).mem_iff.mpr (List.mem_cons_self ..)
  exact ⟨a, b, rest', hn, (takeLeast_perm ha).trans ((takeLeast_perm hb).cons a),
    takeLeast_least hw.reps ha b hbmem, rfl⟩

theorem minRep_toNat (a b : CharCode) : (minRep a b).toNat = min a.toNat b.toNat := by
  unfold minRep
  split
  next h => exact (Nat.min_eq_left (BitVec.le_def.mp h)).symm
  next h => exact (Nat.min_eq_right (Nat.le_of_not_le (BitVec.le_def.not.mp h))).symm

theorem minRep_eq_or (a b : CharCode) : minRep a b = a ∨ minRep a b = b := ite_eq_or_eq _ _ _

/-- The counts in the working set bound every sum that is formed, so no addition wraps (R126). -/
theorem combineNodes_freq_toNat {a b : Entry} (h : a.node.freq.toNat + b.node.freq.toNat < 2 ^ 40) :
    (combineNodes a b).freq.toNat = a.node.freq.toNat + b.node.freq.toNat :=
  BitVec.toNat_add_of_lt h

theorem combineInv_combineOnce {f : FreqStore} {w w' : Work} (hb : BuildInv f w) (hw : CombineInv f w)
    (h : combineOnce w = some w') : CombineInv f w' := by
  obtain ⟨a, b, rest, hn, hperm, hlt, rfl⟩ := combineOnce_selects hw h
  have hreps := (hperm.map (fun e => e.node.rep)).nodup_iff.mp hw.reps
  have htotal := (queueCount_perm hperm).symm.trans hw.total
  have hfree : readNode w.node ⟨w.next, hn⟩ = none := hb.unused _ (Nat.le_refl _)
  have hreada : readNode w.node a.slot = some a.node := (hb.queue a (hperm.mem_iff.mpr (by simp))).2
  have hreadb : readNode w.node b.slot = some b.node := (hb.queue b (hperm.mem_iff.mpr (by simp))).2
  simp only [queueCount_cons] at htotal
  have hsum := combineNodes_freq_toNat (a := a) (b := b) (by have := totalCount_lt f; omega)
  constructor <;> dsimp only
  case reps =>
    simp only [List.map_cons, List.nodup_cons, List.mem_cons, not_or] at hreps ⊢
    obtain ⟨⟨-, ha⟩, hb, hrest⟩ := hreps
    refine ⟨?_, hrest⟩
    rcases minRep_eq_or a.node.rep b.node.rep with he | he
    · exact fun hm => ha (he ▸ hm)
    · exact fun hm => hb (he ▸ hm)
  case total => rw [queueCount_cons, hsum, ← htotal, Nat.add_assoc]
  case positive =>
    intro n v hr
    rcases readNode_writeNode_cases hr with ⟨-, rfl⟩ | hr
    · have := hw.positive _ _ hreada
      omega
    · exact hw.positive n v hr
  case combined =>
    intro n rep fr l r hr
    rcases readNode_writeNode_cases hr with ⟨-, hv⟩ | hr
    · cases hv
      exact ⟨a.node, b.node, readNode_writeNode_of_free hfree hreada _, readNode_writeNode_of_free hfree hreadb _,
        hsum, minRep_toNat .., hlt⟩
    · exact (hw.combined n rep fr l r hr).writeNode hfree _

theorem combineInv_builtWork (f : FreqStore) : CombineInv f (builtWork f) :=
  (combineLoop_keeps (P := fun w => BuildInv f w ∧ CombineInv f w)
    (fun _ _ ⟨hb, hw⟩ h => ⟨buildInv_combineOnce hb h, combineInv_combineOnce hb hw h⟩) _ _
    ⟨buildInv_initWork f, combineInv_initWork f⟩).2

/-! ### The nodes of the tree -/

theorem buildTree_combined {f : FreqStore} {n l r : Idx} {rep : CharCode} {fr : FreqSum}
    (h : readNode (buildTree f).node n = some (.internal rep fr l r)) :
    CombinesChildren (buildTree f).node rep fr l r := (combineInv_builtWork f).combined n rep fr l r h

/-- Settles O35: what `CombineInv` says of the nodes, at the end of the loop. -/
theorem builtNodesCombineTheirChildren : Obligations.BuiltNodesCombineTheirChildren :=
  fun s => ⟨_, exec_build s, fun _ _ _ _ _ => buildTree_combined, (combineInv_builtWork s.block.freq).positive⟩

end Sys2Proof.Machine

/-! PROOFS. The nodes of `BUILD` are one tree below `ROOT` (41_tree_build.md R128, R131, R133). -/

namespace Sys2Proof.Machine

/-! ### Parents during the loop -/

theorem childOf_writeNode {ns : NodeStore} {k m n : Idx} {a b : Entry} (hk : readNode ns k = none) :
    childOf (writeNode ns k (combineNodes a b)) m n ↔ m = k ∧ (a.slot = n ∨ b.slot = n) ∨ childOf ns m n := by
  constructor
  · rintro ⟨rep, fr, l, r, hm, hn⟩
    rcases readNode_writeNode_cases hm with ⟨rfl, hv⟩ | hm
    · cases hv
      exact .inl ⟨rfl, hn⟩
    · exact .inr ⟨rep, fr, l, r, hm, hn⟩
  · rintro (⟨rfl, hn⟩ | ⟨rep, fr, l, r, hm, hn⟩)
    · exact ⟨_, _, _, _, readNode_writeNode_self .., hn⟩
    · exact ⟨rep, fr, l, r, readNode_writeNode_of_free hk hm _, hn⟩

/-- A child is a valid slot, lower than its parent (41_tree_build.md R132). -/
theorem BuildInv.child {f : FreqStore} {w : Work} (hb : BuildInv f w) {m n : Idx} (h : childOf w.node m n) :
    n < m ∧ (readNode w.node n).isSome := by
  obtain ⟨rep, fr, l, r, hm, hn⟩ := h
  obtain ⟨hl, hr, hls, hrs⟩ := hb.children m rep fr l r hm
  rcases hn with rfl | rfl
  · exact ⟨hl, hls⟩
  · exact ⟨hr, hrs⟩

/-- What every pass keeps of the forest under construction: the slots in the working set are its roots, and every other
valid slot has exactly one parent (R128, R133). -/
structure ForestInv (w : Work) : Prop where
  roots : ∀ e ∈ w.queue, ∀ m, ¬ childOf w.node m e.slot
  placed : ∀ n, (readNode w.node n).isSome → (∃ e ∈ w.queue, e.slot = n) ∨ ∃ m, childOf w.node m n
  unique : ∀ {m m' n}, childOf w.node m n → childOf w.node m' n → m = m'

theorem not_childOf_initWork {f : FreqStore} {m n : Idx} : ¬ childOf (initWork f).node m n := by
  rintro ⟨rep, fr, l, r, hm, -⟩
  exact initWork_not_internal hm

theorem forestInv_initWork (f : FreqStore) : ForestInv (initWork f) where
  roots _ _ _ := not_childOf_initWork
  placed n h := by
    rcases Nat.lt_or_ge n.val 256 with hn | hn
    · obtain ⟨c, rfl⟩ := exists_leafSlot_eq hn
      rw [initWork_leaf] at h
      split at h
      · cases h
      next hc =>
        refine .inl ⟨⟨leafSlot c, leafNode c (readFreq f c)⟩, ?_, rfl⟩
        rw [initWork_queue, List.mem_reverse]
        exact List.mem_map_of_mem (List.mem_filter.mpr ⟨mem_allChars c, bne_iff_ne.mpr hc⟩)
    · rw [initWork_internal f n hn] at h
      cases h
  unique h := absurd h not_childOf_initWork

/-- Nodes in the working set with different representative characters stand in different slots. -/
theorem BuildInv.slot_ne {f : FreqStore} {w : Work} (hb : BuildInv f w) {x y : Entry} (hx : x ∈ w.queue)
    (hy : y ∈ w.queue) (h : x.node.rep ≠ y.node.rep) : x.slot ≠ y.slot := by
  intro he
  have hxr := (hb.queue x hx).2
  rw [he, (hb.queue y hy).2] at hxr
  exact h (congrArg Node.rep (Option.some.inj hxr)).symm

theorem forestInv_combineOnce {f : FreqStore} {w w' : Work} (hb : BuildInv f w) (hc : CombineInv f w)
    (hw : ForestInv w) (h : combineOnce w = some w') : ForestInv w' := by
  obtain ⟨a, b, rest, hn, hperm, -, rfl⟩ := combineOnce_selects hc h
  have hmem : ∀ {e}, e ∈ w.queue ↔ e = a ∨ e = b ∨ e ∈ rest := by simp [hperm.mem_iff]
  have hreps := (hperm.map (fun e => e.node.rep)).nodup_iff.mp hc.reps
  simp only [List.map_cons, List.nodup_cons, List.mem_cons, List.mem_map, not_or, not_exists, not_and] at hreps
  obtain ⟨⟨-, harep⟩, hbrep, -⟩ := hreps
  have ha := hmem.mpr (.inl rfl)
  have hb' := hmem.mpr (.inr (.inl rfl))
  have hfree : readNode w.node ⟨w.next, hn⟩ = none := hb.unused _ (Nat.le_refl _)
  constructor <;> dsimp only
  case roots =>
    intro e he m
    rw [childOf_writeNode hfree]
    rcases List.mem_cons.mp he with rfl | he
    · rintro (⟨rfl, hslot | hslot⟩ | hm)
      · exact absurd (congrArg Fin.val hslot) (hb.queue a ha).1.ne
      · exact absurd (congrArg Fin.val hslot) (hb.queue b hb').1.ne
      · simpa [hfree] using (hb.child hm).2
    · have heq := hmem.mpr (.inr (.inr he))
      rintro (⟨rfl, hslot | hslot⟩ | hm)
      · exact hb.slot_ne heq ha (harep e he) hslot.symm
      · exact hb.slot_ne heq hb' (hbrep e he) hslot.symm
      · exact hw.roots e heq m hm
  case placed =>
    intro n hv
    simp only [childOf_writeNode hfree, List.exists_mem_cons_iff]
    obtain ⟨v, hv⟩ := Option.isSome_iff_exists.mp hv
    rcases readNode_writeNode_cases hv with ⟨rfl, -⟩ | hv
    · exact .inl (.inl rfl)
    · rcases hw.placed n (Option.isSome_of_eq_some hv) with ⟨e, he, rfl⟩ | ⟨m, hm⟩
      · rcases hmem.mp he with rfl | rfl | he
        · exact .inr ⟨_, .inl ⟨rfl, .inl rfl⟩⟩
        · exact .inr ⟨_, .inl ⟨rfl, .inr rfl⟩⟩
        · exact .inl (.inr ⟨e, he, rfl⟩)
      · exact .inr ⟨m, .inr hm⟩
  case unique =>
    intro m m' n hm hm'
    have hnot : (a.slot = n ∨ b.slot = n) → ∀ k, ¬ childOf w.node k n := by
      rintro (rfl | rfl)
      · exact hw.roots a ha
      · exact hw.roots b hb'
    rcases (childOf_writeNode hfree).mp hm with ⟨rfl, hslot⟩ | hm <;>
      rcases (childOf_writeNode hfree).mp hm' with ⟨rfl, hslot'⟩ | hm'
    · rfl
    · exact absurd hm' (hnot hslot m')
    · exact absurd hm (hnot hslot' m)
    · exact hw.unique hm hm'

theorem forestInv_builtWork (f : FreqStore) : ForestInv (builtWork f) :=
  (combineLoop_keeps (P := fun w => BuildInv f w ∧ CombineInv f w ∧ ForestInv w)
    (fun _ _ ⟨hb, hc, hw⟩ h => ⟨buildInv_combineOnce hb h, combineInv_combineOnce hb hc h,
      forestInv_combineOnce hb hc hw h⟩) _ _
    ⟨buildInv_initWork f, combineInv_initWork f, forestInv_initWork f⟩).2.2

/-! ### Parents in the tree -/

/-- The one node left in the working set is the root. -/
theorem builtWork_queue_of_leaf {f : FreqStore} (h : presentCount f ≠ 0) :
    ∃ e, (builtWork f).queue = [e] ∧ (buildTree f).root = e.slot := by
  have hlen : (builtWork f).queue.length = 1 := by
    rw [builtWork_queue_length]
    omega
  obtain ⟨e, he⟩ := List.length_eq_one_iff.mp hlen
  exact ⟨e, he, by simp [buildTree, he, finishRoot]⟩

theorem presentCount_eq_zero_iff {f : FreqStore} : presentCount f = 0 ↔ ∀ c, readFreq f c = 0 := by
  simp [presentCount, List.length_eq_zero_iff, List.filter_eq_nil_iff, mem_allChars]

/-- A table with no character gives no node (41_tree_build.md R135). -/
theorem buildTree_node_of_no_leaf {f : FreqStore} (h : presentCount f = 0) (n : Idx) :
    readNode (buildTree f).node n = none := by
  rcases Nat.lt_or_ge n.val 256 with hn | hn
  · obtain ⟨c, rfl⟩ := exists_leafSlot_eq hn
    rw [buildTree_leaf, if_pos (presentCount_eq_zero_iff.mp h c)]
  · refine (buildTree_internal hn).2 ?_
    rw [buildTree_nleaf]
    omega

theorem buildTree_child {f : FreqStore} {m n : Idx} (h : childOf (buildTree f).node m n) :
    n < m ∧ (readNode (buildTree f).node n).isSome := (buildInv_builtWork f).child h

theorem childOf_isSome {ns : NodeStore} {m n : Idx} (h : childOf ns m n) : (readNode ns m).isSome := by
  obtain ⟨rep, fr, l, r, hm, -⟩ := h
  exact Option.isSome_of_eq_some hm

theorem buildTree_parent_unique {f : FreqStore} {m m' n : Idx} (h : childOf (buildTree f).node m n)
    (h' : childOf (buildTree f).node m' n) : m = m' := (forestInv_builtWork f).unique h h'

theorem buildTree_parent_exists {f : FreqStore} {n : Idx} (hn : (readNode (buildTree f).node n).isSome)
    (hroot : n ≠ (buildTree f).root) : ∃ m, childOf (buildTree f).node m n := by
  refine ((forestInv_builtWork f).placed n hn).resolve_left ?_
  rintro ⟨e, he, rfl⟩
  have hleaf : presentCount f ≠ 0 := fun h0 => by rw [buildTree_node_of_no_leaf h0] at hn; cases hn
  obtain ⟨e', hq, hr⟩ := builtWork_queue_of_leaf hleaf
  rw [hq, List.mem_singleton] at he
  exact hroot (by rw [hr, he])

theorem buildTree_root_no_parent {f : FreqStore} (m : Idx) : ¬ childOf (buildTree f).node m (buildTree f).root := by
  by_cases h0 : presentCount f = 0
  · intro hm
    simpa [buildTree_node_of_no_leaf h0] using childOf_isSome hm
  · obtain ⟨e, hq, hr⟩ := builtWork_queue_of_leaf h0
    rw [hr]
    exact (forestInv_builtWork f).roots e (by simp [hq]) m

theorem buildTree_left_ne_right {f : FreqStore} {n l r : Idx} {rep : CharCode} {fr : FreqSum}
    (h : readNode (buildTree f).node n = some (.internal rep fr l r)) : l ≠ r := by
  rintro rfl
  obtain ⟨a, b, ha, hb, -, -, hlt⟩ := buildTree_combined h
  cases ha.symm.trans hb
  simp [Node.lt_irrefl] at hlt

/-! ### Paths from the root -/

/-- One more move, from an internal node to a child. -/
theorem walk_append_move {ns : NodeStore} {p : Path} {k m : Idx} {rep : CharCode} {fr : FreqSum} {l r : Idx}
    (hp : walk ns p k = some m) (hm : readNode ns m = some (.internal rep fr l r)) (b : Bool) :
    walk ns (p ++ [b]) k = some (if b then r else l) := by
  induction p generalizing k with
  | nil => cases hp; simp [walk, hm]
  | cons x p ih =>
    rw [walk] at hp
    rw [List.cons_append, walk]
    split at hp
    · cases hp
    · cases hp
    · exact ih hp

theorem exists_walk_to_child {ns : NodeStore} {p : Path} {k m n : Idx} (hp : walk ns p k = some m)
    (h : childOf ns m n) : ∃ q, walk ns q k = some n := by
  obtain ⟨rep, fr, l, r, hm, rfl | rfl⟩ := h
  · exact ⟨_, walk_append_move hp hm false⟩
  · exact ⟨_, walk_append_move hp hm true⟩

/-- Every valid slot is reached from the root: its parent is higher, and is reached by induction from the top. -/
theorem buildTree_reached {f : FreqStore} (n : Idx) (hn : (readNode (buildTree f).node n).isSome) :
    ∃ p, walk (buildTree f).node p (buildTree f).root = some n := by
  induction n using WellFoundedGT.induction with | _ n ih
  by_cases hroot : n = (buildTree f).root
  · exact ⟨[], congrArg some hroot.symm⟩
  · obtain ⟨m, hm⟩ := buildTree_parent_exists hn hroot
    obtain ⟨p, hp⟩ := ih m (buildTree_child hm).1 (childOf_isSome hm)
    exact exists_walk_to_child hp hm

/-- Settles O33: `ForestInv` at the end of the loop, where the root is the one node in the working set. -/
theorem builtNodesHaveOneParentEach : Obligations.BuiltNodesHaveOneParentEach := by
  refine fun s => ⟨_, exec_build s, fun n hn hroot => ?_, buildTree_root_no_parent,
    fun _ _ _ _ _ => buildTree_left_ne_right, buildTree_reached⟩
  obtain ⟨m, hm⟩ := buildTree_parent_exists hn hroot
  exact ⟨m, hm, fun m' hm' => buildTree_parent_unique hm' hm⟩

/-! ### The root -/

/-- The only character of a table with one. -/
theorem eq_of_presentCount_eq_one {f : FreqStore} (h : presentCount f = 1) {c d : CharCode} (hc : readFreq f c ≠ 0)
    (hd : readFreq f d ≠ 0) : c = d := by
  obtain ⟨x, hx⟩ := List.length_eq_one_iff.mp h
  have hmem : ∀ y, readFreq f y ≠ 0 → y = x := fun y hy =>
    List.mem_singleton.mp (hx ▸ List.mem_filter.mpr ⟨mem_allChars y, bne_iff_ne.mpr hy⟩)
  rw [hmem c hc, hmem d hd]

theorem buildTree_root_valid {f : FreqStore} (h : presentCount f ≠ 0) :
    (buildTree f).root.val < (builtWork f).next ∧ (readNode (buildTree f).node (buildTree f).root).isSome := by
  obtain ⟨e, hq, hr⟩ := builtWork_queue_of_leaf h
  obtain ⟨hlt, hread⟩ := (buildInv_builtWork f).queue e (by simp [hq])
  rw [hr]
  exact ⟨hlt, Option.isSome_of_eq_some hread⟩

theorem buildTree_root_of_one_leaf {f : FreqStore} (h : presentCount f = 1) {c : CharCode} (hc : readFreq f c ≠ 0) :
    (buildTree f).root = leafSlot c := by
  obtain ⟨hlt, hvalid⟩ := buildTree_root_valid (f := f) (by omega)
  rw [builtWork_next, h] at hlt
  obtain ⟨d, hd⟩ := exists_leafSlot_eq hlt
  rw [hd, buildTree_leaf] at hvalid
  split at hvalid
  · cases hvalid
  next hfd => rw [hd, eq_of_presentCount_eq_one h hc hfd]

/-- With two leaves or more the root is the last slot filled: a parent of that slot would be higher. -/
theorem buildTree_root_of_two_leaves {f : FreqStore} (h : 2 ≤ (buildTree f).nleaf.toNat) :
    (buildTree f).root.val = 256 + (buildTree f).nleaf.toNat - 2 := by
  have hle := presentCount_le f
  rw [← buildTree_nleaf] at hle
  have hlast : 256 + (buildTree f).nleaf.toNat - 2 < 511 := by omega
  obtain ⟨rep, fr, l, r, hread⟩ := (buildTree_internal (f := f) (n := ⟨_, hlast⟩) (by dsimp only; omega)).1.mpr
    (by dsimp only; omega)
  by_contra hroot
  obtain ⟨m, hm⟩ := buildTree_parent_exists (Option.isSome_of_eq_some hread)
    fun he => hroot (congrArg Fin.val he).symm
  have hlt : 256 + (buildTree f).nleaf.toNat - 2 < m.val := (buildTree_child hm).1
  have hnone := (buildTree_internal (f := f) (n := m) (by omega)).2 (by omega)
  simpa [hnone] using childOf_isSome hm

/-- Settles O34. -/
theorem builtRootIsTheLastNode : Obligations.BuiltRootIsTheLastNode := by
  refine fun s => ⟨_, exec_build s, fun h => ⟨?_, ?_⟩, fun h c hc => ?_, buildTree_root_of_two_leaves⟩
  · exact congrArg Fin.val (buildTree_root_of_no_leaf h)
  · rw [rootvFlag_eq (by simp), h]
    rfl
  · exact congrArg Fin.val (buildTree_root_of_one_leaf ((buildTree_nleaf _).symm.trans h) hc)

end Sys2Proof.Machine

/-! PROOFS. The leaves below each node that `BUILD` leaves (41_tree_build.md R127, R133, R134). -/

namespace Sys2Proof.Machine

/-! ### The leaves below a slot -/

theorem leavesBelow_leaf {ns : NodeStore} {n : Idx} {rep : CharCode} {fr : FreqSum}
    (h : readNode ns n = some (.leaf rep fr)) (fuel : Nat) : leavesBelow ns (fuel + 1) n = [rep] := by
  rw [leavesBelow, h]

theorem leavesBelow_internal {ns : NodeStore} {n l r : Idx} {rep : CharCode} {fr : FreqSum}
    (h : readNode ns n = some (.internal rep fr l r)) (fuel : Nat) :
    leavesBelow ns (fuel + 1) n = leavesBelow ns fuel l ++ leavesBelow ns fuel r := by
  rw [leavesBelow, h]

/-- A leaf stands in the slot of its character. -/
theorem buildTree_leaf_slot {f : FreqStore} {n : Idx} {c : CharCode} {fr : FreqSum}
    (h : readNode (buildTree f).node n = some (.leaf c fr)) :
    n = leafSlot c ∧ fr.toNat = (readFreq f c).toNat := by
  rcases Nat.lt_or_ge n.val 256 with hn | hn
  · obtain ⟨d, rfl⟩ := exists_leafSlot_eq hn
    rw [buildTree_leaf] at h
    split at h
    · cases h
    · cases h
      exact ⟨rfl, leafNode_freq_toNat c _⟩
  · obtain ⟨hinternal, hnone⟩ := buildTree_internal (f := f) hn
    by_cases hfilled : n.val + 2 ≤ 256 + (buildTree f).nleaf.toNat
    · obtain ⟨rep, fr', l, r, hr⟩ := hinternal.mpr hfilled
      cases h.symm.trans hr
    · cases h.symm.trans (hnone hfilled)

/-- An internal node stands in a slot from 256 on. -/
theorem buildTree_internal_slot {f : FreqStore} {n l r : Idx} {rep : CharCode} {fr : FreqSum}
    (h : readNode (buildTree f).node n = some (.internal rep fr l r)) : 256 ≤ n.val := by
  by_contra hn
  obtain ⟨c, rfl⟩ := exists_leafSlot_eq (Nat.lt_of_not_le hn)
  rw [buildTree_leaf] at h
  split at h <;> cases h

/-! ### No leaf is below two children of one node -/

/-- Slot `m` is slot `n` or above it. -/
def Above (ns : NodeStore) : Idx → Idx → Prop := Relation.ReflTransGen (fun n m => childOf ns m n)

theorem above_of_mem_leavesBelow {f : FreqStore} {fuel : Nat} {n : Idx} {c : CharCode}
    (h : c ∈ leavesBelow (buildTree f).node fuel n) : Above (buildTree f).node (leafSlot c) n := by
  induction fuel generalizing n with
  | zero => cases h
  | succ fuel ih =>
    match hn : readNode (buildTree f).node n with
    | none => simp [leavesBelow, hn] at h
    | some (.leaf rep fr) =>
      rw [leavesBelow_leaf hn, List.mem_singleton] at h
      rw [h, (buildTree_leaf_slot hn).1]
      exact .refl
    | some (.internal rep fr l r) =>
      rw [leavesBelow_internal hn, List.mem_append] at h
      rcases h with h | h
      · exact (ih h).tail ⟨rep, fr, l, r, hn, .inl rfl⟩
      · exact (ih h).tail ⟨rep, fr, l, r, hn, .inr rfl⟩

theorem Above.le {f : FreqStore} {n m : Idx} (h : Above (buildTree f).node n m) : n ≤ m := by
  induction h with
  | refl => exact le_refl n
  | tail _ hchild ih => exact ih.trans (buildTree_child hchild).1.le

/-- What is above a slot and is not the slot is its one parent or above that. -/
theorem not_above_of_siblings {f : FreqStore} {m x y : Idx} (hx : childOf (buildTree f).node m x)
    (hy : childOf (buildTree f).node m y) (hne : x ≠ y) : ¬ Above (buildTree f).node x y := by
  intro h
  rcases Relation.ReflTransGen.cases_head h with rfl | ⟨m', hx', habove⟩
  · exact hne rfl
  · rw [buildTree_parent_unique hx' hx] at habove
    exact absurd (Above.le habove) (not_le.mpr (buildTree_child hy).1)

/-- Parents are unique, so the slots above one slot stand in a line. -/
theorem above_total {f : FreqStore} {n x y : Idx} (hx : Above (buildTree f).node n x)
    (hy : Above (buildTree f).node n y) : Above (buildTree f).node x y ∨ Above (buildTree f).node y x := by
  have hunique : Relator.RightUnique (fun n m => childOf (buildTree f).node m n) :=
    fun _ _ _ => buildTree_parent_unique
  exact Relation.ReflTransGen.total_of_right_unique hunique hx hy

theorem buildTree_leaves_disjoint {f : FreqStore} {n l r : Idx} {rep : CharCode} {fr : FreqSum}
    (h : readNode (buildTree f).node n = some (.internal rep fr l r)) (fuel : Nat) :
    (leavesBelow (buildTree f).node fuel l).Disjoint (leavesBelow (buildTree f).node fuel r) := by
  intro c hcl hcr
  have hl : childOf (buildTree f).node n l := ⟨rep, fr, l, r, h, .inl rfl⟩
  have hr : childOf (buildTree f).node n r := ⟨rep, fr, l, r, h, .inr rfl⟩
  have hne := buildTree_left_ne_right h
  rcases above_total (above_of_mem_leavesBelow hcl) (above_of_mem_leavesBelow hcr) with hlr | hrl
  · exact not_above_of_siblings hl hr hne hlr
  · exact not_above_of_siblings hr hl hne.symm hrl

/-! ### What a node says of the leaves below it -/

/-- The node `v` is that of a slot with the leaves `cs` below it (R127, R134): its representative character is the least
of them, none occurs twice, and its frequency is the sum of their counts. -/
structure SumsLeaves (f : FreqStore) (v : Node) (cs : List CharCode) : Prop where
  rep_mem : v.rep ∈ cs
  rep_le : ∀ c ∈ cs, v.rep.toNat ≤ c.toNat
  nodup : cs.Nodup
  sum : v.freq.toNat = (cs.map (fun c => (readFreq f c).toNat)).sum

theorem sumsLeaves_leaf {f : FreqStore} {c : CharCode} {fr : FreqSum} (h : fr.toNat = (readFreq f c).toNat) :
    SumsLeaves f (.leaf c fr) [c] where
  rep_mem := List.mem_singleton_self c
  rep_le := List.forall_mem_singleton.mpr (Nat.le_refl _)
  nodup := List.nodup_singleton c
  sum := by simpa [Node.freq] using h

theorem SumsLeaves.append {f : FreqStore} {a b v : Node} {cs ds : List CharCode} (ha : SumsLeaves f a cs)
    (hb : SumsLeaves f b ds) (hdisjoint : cs.Disjoint ds) (hrep : v.rep.toNat = min a.rep.toNat b.rep.toNat)
    (hfreq : v.freq.toNat = a.freq.toNat + b.freq.toNat) : SumsLeaves f v (cs ++ ds) where
  rep_mem := by
    rw [List.mem_append]
    rcases Nat.le_total a.rep.toNat b.rep.toNat with hle | hle
    · rw [Nat.min_eq_left hle, BitVec.toNat_inj] at hrep
      exact .inl (hrep ▸ ha.rep_mem)
    · rw [Nat.min_eq_right hle, BitVec.toNat_inj] at hrep
      exact .inr (hrep ▸ hb.rep_mem)
  rep_le c hc := by
    rw [hrep]
    rcases List.mem_append.mp hc with hc | hc
    · exact (Nat.min_le_left ..).trans (ha.rep_le c hc)
    · exact (Nat.min_le_right ..).trans (hb.rep_le c hc)
  nodup := ha.nodup.append hb.nodup hdisjoint
  sum := by rw [List.map_append, List.sum_append, ← ha.sum, ← hb.sum, hfreq]

/-- The fuel counts frames: one for a leaf, and for the internal node in slot `n` at most `n - 254`, because each of its
children is lower. -/
theorem buildTree_sumsLeaves {f : FreqStore} {fuel : Nat} {n : Idx} {v : Node} (hpos : 1 ≤ fuel)
    (hfuel : n.val ≤ fuel + 254) (h : readNode (buildTree f).node n = some v) :
    SumsLeaves f v (leavesBelow (buildTree f).node fuel n) := by
  induction fuel generalizing n v with
  | zero => cases hpos
  | succ fuel ih =>
    cases v with
    | leaf c fr =>
      rw [leavesBelow_leaf h]
      exact sumsLeaves_leaf (buildTree_leaf_slot h).2
    | internal rep fr l r =>
      have hn := buildTree_internal_slot h
      obtain ⟨hl : l.val < n.val, hr : r.val < n.val, -⟩ := buildTree_children h
      obtain ⟨a, b, ha, hb, hfreq, hrep, -⟩ := buildTree_combined h
      rw [leavesBelow_internal h]
      have hla := ih (by omega) (by omega) ha
      have hlb := ih (by omega) (by omega) hb
      exact hla.append hlb (buildTree_leaves_disjoint h fuel) hrep hfreq

/-- The one node left in the working set holds all counts. -/
theorem buildTree_root_freq {f : FreqStore} (h : presentCount f ≠ 0) :
    ∃ v, readNode (buildTree f).node (buildTree f).root = some v ∧ v.freq.toNat = totalCount f := by
  obtain ⟨e, hq, hr⟩ := builtWork_queue_of_leaf h
  refine ⟨e.node, hr ▸ ((buildInv_builtWork f).queue e (by simp [hq])).2, ?_⟩
  have htotal := (combineInv_builtWork f).total
  rwa [hq, queueCount_cons] at htotal

/-- Settles O36: the fuel 256 suffices for every slot, and `CombineInv` gives the root. -/
theorem builtNodesSumTheLeavesBelow : Obligations.BuiltNodesSumTheLeavesBelow := by
  refine fun s => ⟨_, exec_build s, fun n v h => ?_, fun h => ?_⟩
  · obtain ⟨hmem, hle, hnodup, hsum⟩ := buildTree_sumsLeaves (fuel := 256) (by decide) (by omega) h
    exact ⟨hmem, hle, hnodup, hsum⟩
  · refine buildTree_root_freq (Nat.one_le_iff_ne_zero.mp ?_)
    rwa [← buildTree_nleaf]

end Sys2Proof.Machine

/-! PROOFS. The tables with no entry and with one: the tree, the codes, and the words that read them (41_tree_build.md
R135, R136, 42_code_gen.md R155, R159). -/

namespace Sys2Proof.Machine

/-! ### `GEN` on a tree of at most one node -/

theorem exec_gen_of_genCodes {s : State} {cs : CodeStore} (hphase : s.block.phase ≠ .load)
    (h : genCodes s.block.node s.block.nleaf s.block.root = .ok cs) :
    exec .gen s = .next (respondOk 0 (onBlock (genBlock cs) s)) :=
  exec_of_okBlock rfl (bne_iff_ne.mpr hphase) ⟨cs, h, rfl⟩

theorem genCodes_of_no_leaf {nleaf : BitVec 9} (h : nleaf = 0) (ns : NodeStore) (root : Idx) :
    genCodes ns nleaf root = .ok [] := by
  rw [h]
  rfl

theorem genCodes_of_root_leaf {ns : NodeStore} {nleaf : BitVec 9} {root : Idx} {c : CharCode} {fr : FreqSum}
    (hnleaf : 1 ≤ nleaf.toNat) (h : readNode ns root = some (.leaf c fr)) :
    genCodes ns nleaf root = .ok (writeCode [] c []) := by
  rw [genCodes, if_pos hnleaf, visit_leaf h]

theorem symbolsFrom_nil (base : Nat) : symbolsFrom [] base = 0 := by
  refine BitVec.eq_of_getLsbD_eq fun j hj => ?_
  rw [getLsbD_symbolsFrom [] base hj, symbolAt_eq]
  simp

/-! ### `STATUS` after `BUILD` -/

/-- `STATUS` after `BUILD` with no error on record, by the number of leaves (10_state.md R44). -/
theorem statusWord_buildBlock {b : Block} {k : BitVec 9} (hnleaf : (buildTree b.freq).nleaf = k)
    (hill : b.errIll = false) (hseq : b.errSeq = false) : statusWord (buildBlock b) =
      field 1#2 0 ||| field (bit (k == 0)) 2 ||| field (bit (k == 1)) 3 ||| field k 16 := by
  simp [statusWord, emptyFlag, singleFlag, nleafField, Phase.bits, hnleaf, hill, hseq, bit, field]

/-! ### The empty table -/

/-- Settles O37: no character occurs, so `BUILD` leaves no node and `GEN` does not visit. -/
theorem emptyTableGivesTheEmptyTree : Obligations.EmptyTableGivesTheEmptyTree := by
  intro s hfreq
  have hcount := presentCount_eq_zero_iff.mpr hfreq
  have hnleaf : (buildTree s.block.freq).nleaf = 0 :=
    BitVec.eq_of_toNat_eq ((buildTree_nleaf _).trans hcount)
  have hroot := buildTree_root_of_no_leaf (congrArg BitVec.toNat hnleaf)
  refine ⟨_, _, exec_build s, rfl, buildTree_node_of_no_leaf hcount, hnleaf, hroot, rfl, fun hill hseq => ?_, ?_,
    exec_gen_of_genCodes (by simp) (genCodes_of_no_leaf hnleaf ..), rfl, rfl, fun _ => rfl,
    fun c => exec_read rfl rfl rfl⟩
  · exact (statusWord_buildBlock hnleaf hill hseq).trans (by decide)
  · simp [rootWord, rootvFlag, hnleaf, hroot, bit, field, idxBits]

/-! ### The table with one entry -/

theorem presentCount_of_one_entry {f : FreqStore} {c : CharCode} (hc : readFreq f c ≠ 0)
    (h : ∀ d, d ≠ c → readFreq f d = 0) : presentCount f = 1 := by
  have hpred : ∀ d ∈ allChars, (readFreq f d != 0) = (d == c) := by
    intro d _
    by_cases hd : d = c
    · rw [hd, bne_iff_ne.mpr hc, beq_self_eq_true]
    · rw [h d hd, beq_false_of_ne hd, bne_self_eq_false]
  rw [presentCount, List.filter_congr hpred, ← List.countP_eq_length_filter]
  exact List.count_eq_one_of_mem allChars_nodup (mem_allChars c)

theorem buildTree_node_of_one_entry {f : FreqStore} {c : CharCode} (hc : readFreq f c ≠ 0)
    (h : ∀ d, d ≠ c → readFreq f d = 0) {n : Idx} (hn : n ≠ leafSlot c) :
    readNode (buildTree f).node n = none := by
  rcases Nat.lt_or_ge n.val 256 with hlt | hge
  · obtain ⟨d, rfl⟩ := exists_leafSlot_eq hlt
    rw [buildTree_leaf, if_pos (h d (leafSlot_inj.not.mp hn))]
  · refine (buildTree_internal hge).2 ?_
    rw [buildTree_nleaf, presentCount_of_one_entry hc h]
    omega

theorem field_idxBits_leafSlot (c : CharCode) : field (idxBits (leafSlot c)) 0 = c.setWidth 32 := by
  refine BitVec.eq_of_toNat_eq ?_
  rw [field, BitVec.shiftLeft_zero, BitVec.toNat_setWidth_of_le (by decide), idxBits_toNat, leafSlot_val,
    BitVec.toNat_setWidth_of_le (by decide)]

/-- Settles O38: the one leaf is the root, so `GEN` stores the empty path, which reads as length 0 and no symbol. -/
theorem singleEntryTableGivesOneLeaf : Obligations.SingleEntryTableGivesOneLeaf := by
  intro s c hc h
  have hcount := presentCount_of_one_entry hc h
  have hnleaf : (buildTree s.block.freq).nleaf = 1 :=
    BitVec.eq_of_toNat_eq ((buildTree_nleaf _).trans hcount)
  have hroot := buildTree_root_of_one_leaf hcount hc
  have hleaf := (buildTree_leaf s.block.freq c).trans (if_neg hc)
  have hgen : genCodes (buildTree s.block.freq).node (buildTree s.block.freq).nleaf (buildTree s.block.freq).root =
      .ok (writeCode [] c []) := genCodes_of_root_leaf (by simp [hnleaf]) (hroot ▸ hleaf)
  refine ⟨_, _, exec_build s, hleaf, fun n => buildTree_node_of_one_entry hc h, hnleaf, hroot, fun hill hseq => ?_, ?_,
    exec_gen_of_genCodes (by simp) hgen, ?_, fun d hd => ?_, ⟨_, exec_read rfl rfl rfl, ?_⟩,
    fun w => ⟨_, exec_read rfl rfl rfl, ?_⟩⟩
  · exact (statusWord_buildBlock hnleaf hill hseq).trans (by decide)
  · have hbit : field (bit (Phase.tree != .load)) 9 = 0x200 := by decide
    simp [rootWord, rootvFlag, hnleaf, hroot, hbit, field_idxBits_leafSlot]
  · simp [readCode_writeCode]
  · simp [readCode_writeCode, hd.symm]
  · simp [okWord, readCode_writeCode, clenw, field]
  · simp [okWord, readCode_writeCode, cbitsw, symbolsFrom_nil]

end Sys2Proof.Machine

/-! PROOFS. `GEN` on the tree that `BUILD` leaves: it completes, and its codes are the paths from `ROOT` to the leaves
(42_code_gen.md R153 to R158, R160, R162). -/

namespace Sys2Proof.Machine

/-! ### Walking a path -/

/-- A path with a first move is followed from an internal node only. -/
theorem walk_cons_eq_some {ns : NodeStore} {b : Bool} {p : Path} {n m : Idx} :
    walk ns (b :: p) n = some m ↔
      ∃ rep fr l r, readNode ns n = some (.internal rep fr l r) ∧ walk ns p (if b then r else l) = some m := by
  rw [walk]
  split <;> simp [*]

theorem walk_append (ns : NodeStore) (p q : Path) (n : Idx) :
    walk ns (p ++ q) n = (walk ns p n).bind (walk ns q) := by
  induction p generalizing n with
  | nil => rfl
  | cons b p ih =>
    rw [List.cons_append, walk, walk]
    split
    · rfl
    · rfl
    · exact ih _

/-- Only the empty path can be followed from a leaf. -/
theorem eq_nil_of_walk_leaf {ns : NodeStore} {q : Path} {n m : Idx} {c : CharCode} {fr : FreqSum}
    (hleaf : readNode ns n = some (.leaf c fr)) (h : walk ns q n = some m) : q = [] := by
  cases q with
  | nil => rfl
  | cons b q =>
    obtain ⟨rep, fr', l, r, hn, -⟩ := walk_cons_eq_some.mp h
    cases hleaf.symm.trans hn

/-- Every move goes from an internal node, in a slot from 256 on, to a lower slot, so a path is no longer than the
number of internal slots up to its start (R158 (c)). -/
theorem buildTree_walk_length {f : FreqStore} {p : Path} {n m : Idx} (h : walk (buildTree f).node p n = some m) :
    p.length ≤ n.val - 255 := by
  induction p generalizing n with
  | nil => exact Nat.zero_le _
  | cons b p ih =>
    obtain ⟨rep, fr, l, r, hn, hp⟩ := walk_cons_eq_some.mp h
    have hge := buildTree_internal_slot hn
    obtain ⟨hl : l.val < n.val, hr : r.val < n.val, -⟩ := buildTree_children hn
    have hdown : (if b then r else l).val < n.val := by cases b; exacts [hl, hr]
    have hrest := ih hp
    rw [List.length_cons]
    omega

/-! ### The traversal completes -/

/-- The fuel counts frames, as in `buildTree_sumsLeaves`: the walk visits valid slots only and goes down at each move
(R156). -/
theorem visit_buildTree_completes {f : FreqStore} {fuel : Nat} {n : Idx} (hpos : 1 ≤ fuel)
    (hfuel : n.val ≤ fuel + 254) (h : (readNode (buildTree f).node n).isSome) (p : Path) (cs : CodeStore) :
    ∃ cs', visit (buildTree f).node fuel n p cs = .ok cs' := by
  induction fuel generalizing n p cs with
  | zero => cases hpos
  | succ fuel ih =>
    obtain ⟨v, hv⟩ := Option.isSome_iff_exists.mp h
    cases v with
    | leaf c fr => exact ⟨_, visit_leaf hv ..⟩
    | internal rep fr l r =>
      have hn := buildTree_internal_slot hv
      obtain ⟨hl : l.val < n.val, hr : r.val < n.val, hls, hrs⟩ := buildTree_children hv
      obtain ⟨mid, hmid⟩ := ih (by omega) (by omega) hls (p ++ [false]) cs
      obtain ⟨cs', hcs'⟩ := ih (by omega) (by omega) hrs (p ++ [true]) mid
      exact ⟨cs', (visit_internal_eq_ok hv).mpr ⟨mid, hmid, hcs'⟩⟩

theorem genCodes_buildTree_completes (f : FreqStore) :
    ∃ cs, genCodes (buildTree f).node (buildTree f).nleaf (buildTree f).root = .ok cs := by
  unfold genCodes
  split
  next hleaf =>
    rw [buildTree_nleaf] at hleaf
    obtain ⟨-, hroot⟩ := buildTree_root_valid (Nat.one_le_iff_ne_zero.mp hleaf)
    exact visit_buildTree_completes (fuel := 256) (by decide) (by omega) hroot ..
  next => exact ⟨[], rfl⟩

/-- Settles O39: outside LOAD the block holds the tree of the present `FREQ`, on which the traversal completes. -/
theorem genCompletesAndWritesTheCodesOnly : Obligations.GenCompletesAndWritesTheCodesOnly := by
  intro s h hphase
  obtain ⟨cs, hcs⟩ := genCodes_buildTree_completes s.block.freq
  obtain ⟨hnode, hnleaf, hroot⟩ := h.tree hphase
  rw [← hnode, ← hnleaf, ← hroot] at hcs
  exact ⟨cs, exec_gen_of_genCodes hphase hcs⟩

/-! ### The codes are the paths to the leaves -/

/-- Every stored code leads from `root` to a leaf of its character (R153, R162). -/
def CodesLeadToLeaves (ns : NodeStore) (root : Idx) (cs : CodeStore) : Prop :=
  ∀ c p, readCode cs c = some p → ∃ n fr, walk ns p root = some n ∧ readNode ns n = some (.leaf c fr)

/-- The path that the traversal carries is that from `root` to the slot it visits (R153). -/
theorem visit_codesLeadToLeaves {ns : NodeStore} {root n : Idx} {fuel : Nat} {p : Path} {cs cs' : CodeStore}
    (hp : walk ns p root = some n) (hcs : CodesLeadToLeaves ns root cs) (h : visit ns fuel n p cs = .ok cs') :
    CodesLeadToLeaves ns root cs' := by
  induction fuel generalizing n p cs cs' with
  | zero => cases h
  | succ fuel ih =>
    match hn : readNode ns n with
    | none => simp [visit, hn] at h
    | some (.leaf rep fr) =>
      rw [visit_leaf hn] at h
      cases h
      intro c q hq
      rw [readCode_writeCode] at hq
      split at hq
      next hrep =>
        cases hq
        exact ⟨n, fr, hp, hrep ▸ hn⟩
      next => exact hcs c q hq
    | some (.internal rep fr l r) =>
      obtain ⟨mid, hleft, hright⟩ := (visit_internal_eq_ok hn).mp h
      exact ih (walk_append_move hp hn true) (ih (walk_append_move hp hn false) hcs hleft) hright

/-- The traversal leaves a code for every leaf below the slot it visits. -/
theorem visit_code_present {ns : NodeStore} {q : Path} {n m : Idx} {c : CharCode} {fr : FreqSum}
    (hq : walk ns q n = some m) (hm : readNode ns m = some (.leaf c fr)) {fuel : Nat} {p : Path}
    {cs cs' : CodeStore} (h : visit ns fuel n p cs = .ok cs') : (readCode cs' c).isSome := by
  induction q generalizing n fuel p cs cs' with
  | nil =>
    cases hq
    cases fuel with
    | zero => cases h
    | succ fuel =>
      rw [visit_leaf hm] at h
      cases h
      simp [readCode_writeCode]
  | cons b q ih =>
    obtain ⟨rep, fr', l, r, hn, hq⟩ := walk_cons_eq_some.mp hq
    cases fuel with
    | zero => cases h
    | succ fuel =>
      obtain ⟨mid, hleft, hright⟩ := (visit_internal_eq_ok hn).mp h
      cases b with
      | false =>
        refine visit_keeps (P := fun cs => (readCode cs c).isSome) (fun cs d p hcs => ?_) (ih hq hleft) hright
        rw [readCode_writeCode]
        split
        · rfl
        · exact hcs
      | true => exact ih hq hright

theorem genCodes_codesLeadToLeaves {ns : NodeStore} {nleaf : BitVec 9} {root : Idx} {cs : CodeStore}
    (h : genCodes ns nleaf root = .ok cs) : CodesLeadToLeaves ns root cs := by
  have hnil : CodesLeadToLeaves ns root [] := nofun
  unfold genCodes at h
  split at h
  · exact visit_codesLeadToLeaves rfl hnil h
  · cases h
    exact hnil

/-! ### The code table in phase CODES -/

theorem StateInv.tree_of_codes {s : State} (h : StateInv s) (hphase : s.block.phase = .codes) :
    s.block.node = (buildTree s.block.freq).node ∧ s.block.nleaf = (buildTree s.block.freq).nleaf ∧
      s.block.root = (buildTree s.block.freq).root := h.tree (by simp [hphase])

/-- Settles O42: the code leads to a leaf of its character, and in the tree that leaf stands in slot `c`. -/
theorem walkingACodeEndsAtItsLeaf : Obligations.WalkingACodeEndsAtItsLeaf := by
  intro s c p h hphase hc
  obtain ⟨n, fr, hwalk, hleaf⟩ := genCodes_codesLeadToLeaves (h.codes hphase) c p hc
  obtain ⟨hnode, -⟩ := h.tree_of_codes hphase
  obtain ⟨rfl, -⟩ := buildTree_leaf_slot (hnode ▸ hleaf)
  exact ⟨hwalk, fr, hleaf⟩

/-- Settles O43: what follows the shorter code in the longer one would be walked from a leaf, so it is empty, and the
two codes end at one slot. -/
theorem codesArePrefixFree : Obligations.CodesArePrefixFree := by
  rintro s c d p q h hphase hc hd hne ⟨t, rfl⟩
  obtain ⟨hwalk, fr, hleaf⟩ := walkingACodeEndsAtItsLeaf s c p h hphase hc
  obtain ⟨hwalk', -⟩ := walkingACodeEndsAtItsLeaf s d (p ++ t) h hphase hd
  rw [walk_append, hwalk, Option.bind_some] at hwalk'
  have ht := eq_nil_of_walk_leaf hleaf hwalk'
  rw [ht, walk, Option.some.injEq, leafSlot_inj] at hwalk'
  exact hne hwalk'

/-- In phase CODES exactly the characters that occur have codes: a code ends at a leaf, and every leaf is reached
(R154). -/
theorem StateInv.code_present_iff {s : State} (h : StateInv s) (hphase : s.block.phase = .codes) (c : CharCode) :
    (readCode s.block.code c).isSome ↔ readFreq s.block.freq c ≠ 0 := by
  obtain ⟨hnode, hnleaf, hroot⟩ := h.tree_of_codes hphase
  have hslot := buildTree_leaf s.block.freq c
  constructor
  · intro hc hzero
    obtain ⟨p, hp⟩ := Option.isSome_iff_exists.mp hc
    obtain ⟨-, fr, hleaf⟩ := walkingACodeEndsAtItsLeaf s c p h hphase hp
    rw [hnode, hslot, if_pos hzero] at hleaf
    cases hleaf
  · intro hc
    rw [if_neg hc] at hslot
    obtain ⟨p, hp⟩ := buildTree_reached (leafSlot c) (Option.isSome_of_eq_some hslot)
    have hcodes := h.codes hphase
    have hpresent : 1 ≤ s.block.nleaf.toNat := by
      rw [hnleaf, buildTree_nleaf, Nat.one_le_iff_ne_zero]
      exact fun h0 => hc (presentCount_eq_zero_iff.mp h0 c)
    rw [genCodes, if_pos hpresent, hnode, hroot] at hcodes
    exact visit_code_present hp hslot hcodes

/-! ### The number of codes -/

theorem storeFind_isSome_iff {α : Type} {st : List (Nat × α)} {i : Nat} :
    (storeFind st i).isSome ↔ i ∈ st.map Prod.fst := by
  induction st with
  | nil => simp
  | cons e rest ih =>
    obtain ⟨k, v⟩ := e
    rw [storeFind, List.map_cons, List.mem_cons]
    split
    next hk => simp [hk]
    next hk => rw [ih, or_iff_right (Ne.symm hk)]

theorem nodup_indices_of_risingFrom {α : Type} {lo : Nat} {st : List (Nat × α)} (h : risingFrom lo st = true) :
    (st.map Prod.fst).Nodup := by
  induction st generalizing lo with
  | nil => exact List.nodup_nil
  | cons e rest ih =>
    obtain ⟨k, v⟩ := e
    simp only [risingFrom, Bool.and_eq_true] at h
    obtain ⟨-, hrest⟩ := h
    refine List.nodup_cons.mpr ⟨fun hk => ?_, ih hrest⟩
    simpa [storeFind_lt hrest (Nat.lt_succ_self k)] using storeFind_isSome_iff.mpr hk

/-- A canonical code store lists one entry for each character that has a code. -/
theorem codeWf_length {cs : CodeStore} (h : codeWf cs = true) :
    cs.length = (allChars.filter (fun c => (readCode cs c).isSome)).length := by
  simp only [codeWf, indicesBelow, Bool.and_eq_true, List.all_eq_true, decide_eq_true_eq] at h
  obtain ⟨hrising, hbelow⟩ := h
  have hchars : ((allChars.filter (fun c => (readCode cs c).isSome)).map BitVec.toNat).Nodup :=
    (allChars_nodup.filter _).map fun _ _ => BitVec.eq_of_toNat_eq
  have hperm : (cs.map Prod.fst).Perm ((allChars.filter (fun c => (readCode cs c).isSome)).map BitVec.toNat) := by
    refine (List.perm_ext_iff_of_nodup (nodup_indices_of_risingFrom hrising) hchars).mpr fun i => ?_
    simp only [List.mem_map (f := BitVec.toNat), List.mem_filter, mem_allChars, true_and, readCode,
      storeFind_isSome_iff]
    constructor
    · intro hi
      obtain ⟨e, he, rfl⟩ := List.mem_map.mp hi
      have hval : (BitVec.ofNat 8 e.1).toNat = e.1 := Nat.mod_eq_of_lt (hbelow e he)
      exact ⟨BitVec.ofNat 8 e.1, hval.symm ▸ hi, hval⟩
    · rintro ⟨c, hc, rfl⟩
      exact hc
  simpa using hperm.length_eq

/-- Settles O41: the characters with codes are those that occur, and `NLEAF` counts them. -/
theorem codesArePresentExactlyForCountedCharacters : Obligations.CodesArePresentExactlyForCountedCharacters := by
  intro s h hphase
  have hpresent := h.code_present_iff hphase
  obtain ⟨-, hnleaf, -⟩ := h.tree_of_codes hphase
  refine ⟨hpresent, ?_⟩
  have hsame : ∀ c ∈ allChars, (readCode s.block.code c).isSome = (readFreq s.block.freq c != 0) := fun c _ => by
    rw [Bool.eq_iff_iff, hpresent c, bne_iff_ne]
  rw [codeWf_length (codeWf_genCodes (h.codes hphase)), List.filter_congr hsame, hnleaf, buildTree_nleaf,
    presentCount]

/-! ### The lengths of codes -/

/-- Settles O44: with two leaves or more the root is no leaf, and a path from the root is no longer than the number of
internal slots, which is `NLEAF - 1`. -/
theorem codeLengthsAreBounded : Obligations.CodeLengthsAreBounded := by
  intro s c p h hphase hc
  obtain ⟨hwalk, -⟩ := walkingACodeEndsAtItsLeaf s c p h hphase hc
  have hleaf : presentCount s.block.freq ≠ 0 := fun h0 =>
    (h.code_present_iff hphase c).mp (Option.isSome_of_eq_some hc) (presentCount_eq_zero_iff.mp h0 c)
  obtain ⟨hnode, hnleaf, hroot⟩ := h.tree_of_codes hphase
  rw [hnode, hroot] at hwalk
  have hlength : p.length + 1 ≤ s.block.nleaf.toNat := by
    have hdepth := buildTree_walk_length hwalk
    obtain ⟨hlt, -⟩ := buildTree_root_valid hleaf
    rw [builtWork_next] at hlt
    rw [hnleaf, buildTree_nleaf]
    omega
  have hle := h.leaves
  refine ⟨fun htwo => ?_, fun hone => by omega, hlength, by omega⟩
  rw [Nat.one_le_iff_ne_zero, ne_eq, List.length_eq_zero_iff]
  rintro rfl
  have hval : (buildTree s.block.freq).root.val = c.toNat := congrArg Fin.val (Option.some.inj hwalk)
  rw [hnleaf] at htwo
  rw [buildTree_root_of_two_leaves htwo] at hval
  have := c.isLt
  omega

end Sys2Proof.Machine

/-! PROOFS. `CLRERR` and the error record (44_system.md R192). -/

namespace Sys2Proof.Machine

/-- Every phase allows `CLRERR`, so its rule runs in every state. -/
theorem exec_clrerr (s : State) : exec .clrerr s = .next (respondOk 0 (onBlock clearErrors s)) :=
  exec_of_okBlock (i := .clrerr) rfl rfl rfl

/-- Settles O4: the rule of `CLRERR` runs, and `clearErrors` writes the four items of the error record alone. -/
theorem clrerrClearsTheErrorRecordOnly : Obligations.ClrerrClearsTheErrorRecordOnly := by
  intro s
  rw [exec_clrerr, respondOk, onBlock, clearErrors]

end Sys2Proof.Machine

/-! PROOFS. Errors: which words and which commands are answered with one, what is on record then, and that the block
goes on in every reachable state (60_exceptions.md R201 to R213). -/

namespace Sys2Proof.Machine

/-! ### A step on a word, by what the decoder makes of it -/

theorem step_of_decode_ok {s : State} {cmd : CmdWord} {din : Word} {es : List Event} {i : Instr}
    (hp : s.pending = .command cmd din :: es) (hi : decode cmd din = .ok i) :
    step s = exec i { s with pending := es } :=
  stepRunsTheDecodedCommand.1 s cmd din es i hp hi

theorem step_of_decode_error {s : State} {cmd : CmdWord} {din : Word} {es : List Event} {e : DecodeError}
    (hp : s.pending = .command cmd din :: es) (he : decode cmd din = .error e) :
    step s = .next (raiseErr .illegal cmd { s with pending := es }) := by
  rw [step_of_command hp, stepCommand, he, illegalCommand]

/-! ### The block goes on -/

/-- Only `GEN` could stop, and under the invariant it completes. -/
theorem StateInv.exec_completes {s : State} (h : StateInv s) (i : Instr) : ∃ t, exec i s = .next t := by
  match hexec : exec i s with
  | .next t => exact ⟨t, rfl⟩
  | .fault e =>
    obtain ⟨rfl, hallowed, -⟩ := exec_fault_cases hexec
    obtain ⟨cs, hnext⟩ := genCompletesAndWritesTheCodesOnly s h (bne_iff_ne.mp hallowed)
    cases hexec.symm.trans hnext
  | .refused r => exact absurd hexec exec_not_refused

theorem StateInv.step_completes {s : State} (h : StateInv s) : ∃ t, step s = .next t := by
  match hp : s.pending with
  | [] => exact ⟨_, step_of_nothing_pending hp⟩
  | .reset :: es => exact ⟨_, step_of_reset hp⟩
  | .command cmd din :: es =>
    match hd : decode cmd din with
    | .error e => exact ⟨_, step_of_decode_error hp hd⟩
    | .ok i =>
      rw [step_of_decode_ok hp hd]
      exact StateInv.exec_completes (s := { s with pending := es }) (h.of_block_eq rfl) i

/-- Settles O54: waiting, reset and an ILLEGAL answer always go on, and so does every command under the invariant. -/
theorem everyReachableStateGoesOn : Obligations.EveryReachableStateGoesOn := by
  refine ⟨fun s h => h.step_completes, fun s t h => ?_⟩
  rw [exec_clear] at h
  cases h
  rfl

/-! ### The record of an error -/

/-- Settles O14: a word that spells no command is recorded as it stands, and a command out of phase by its own word,
which is the word sent (O22). -/
theorem errorsRecordTheCommandAndChangeNothingElse : Obligations.ErrorsRecordTheCommandAndChangeNothingElse := by
  refine fun s cmd din es hp => ⟨fun e he => step_of_decode_error hp he, fun i hi hallowed => ?_⟩
  obtain ⟨hwf, hcmd, -⟩ := encodeGivesBackEveryLegalWord cmd din i hi
  rw [step_of_decode_ok hp hi, exec_of_not_allowed (s := { s with pending := es }) hwf hallowed, hcmd]
  rfl

/-! ### The phase check -/

/-- The phase check is the table of R202, command by command. -/
theorem allowed_eq_false_iff_refusedIn (i : Instr) (p : Phase) : allowed i p = false ↔ refusedIn i p := by
  cases i
  case gen | rroot | rnode | rnfl | rnfh => exact bne_eq_false_iff_eq
  case rclen | rcbits => exact beq_eq_false_iff_ne
  case clear | clrerr | wfreq | rfreq | build | rstat | rerr => exact iff_of_false nofun id

/-- Settles O15: of the three ways a well-formed command goes on, its phase selects the SEQ answer or the OK answer. -/
theorem seqIsAnsweredExactlyOutOfPhase : Obligations.SeqIsAnsweredExactlyOutOfPhase := by
  intro i s hwf
  have hrefused := allowed_eq_false_iff_refusedIn i s.block.phase
  refine ⟨hrefused, fun h => exec_of_not_allowed hwf (hrefused.mpr h), fun h t ht => ?_⟩
  rcases exec_next_cases ht with ⟨hill, -⟩ | ⟨-, hseq, -⟩ | ⟨-, -, b, -, rfl⟩
  · cases hwf.symm.trans hill
  · exact absurd (hrefused.mp hseq) h
  · exact ⟨_, rfl⟩

/-! ### The words that spell no command -/

/-- What is wrong with the words that each check of R88 refuses, from the table of R201. For index 511 the must-be-zero
bits are zero, because the check on them comes first (R205). -/
def FailsCheck (cmd : CmdWord) : DecodeError → Prop
  | .reservedOpcode => opField cmd = 0x0 ∨ opField cmd = 0xF
  | .mustBeZero =>
    (opField cmd ∈ [0x1#4, 0x2#4, 0x5#4, 0x6#4, 0x7#4, 0x8#4, 0xE#4] ∧ cmd.extractLsb' 0 12 ≠ 0) ∨
    (opField cmd ∈ [0x3#4, 0x4#4, 0xC#4] ∧ cmd.extractLsb' 8 4 ≠ 0) ∨
    (opField cmd ∈ [0x9#4, 0xA#4, 0xB#4] ∧ cmd.extractLsb' 9 3 ≠ 0) ∨
    (opField cmd = 0xD ∧ cmd.getLsbD 11 = true)
  | .nodeIndex511 =>
    opField cmd ∈ [0x9#4, 0xA#4, 0xB#4] ∧ cmd.extractLsb' 9 3 = 0 ∧ (cmd.extractLsb' 0 9).toNat = 511

theorem check_eq_error_iff {p : Prop} [Decidable p] {i : Instr} {x e : DecodeError} :
    (if p then .ok i else .error x : Except DecodeError Instr) = .error e ↔ ¬ p ∧ e = x := by
  split <;> simp [*, eq_comm]

theorem decodeN_eq_error_iff {cmd : CmdWord} {i : Instr} {e : DecodeError} :
    decodeN cmd i = .error e ↔ cmd.extractLsb' 0 12 ≠ 0 ∧ e = .mustBeZero := check_eq_error_iff

theorem decodeC_eq_error_iff {cmd : CmdWord} {mk : CharCode → Instr} {e : DecodeError} :
    decodeC cmd mk = .error e ↔ cmd.extractLsb' 8 4 ≠ 0 ∧ e = .mustBeZero := check_eq_error_iff

theorem nodeFieldOk_eq_true_iff {n : NodeField} : nodeFieldOk n = true ↔ n.toNat ≠ 511 := by
  have := n.isLt
  rw [nodeFieldOk, decide_eq_true_eq]
  omega

theorem decodeX_eq_error_iff {cmd : CmdWord} {mk : NodeField → Instr} {e : DecodeError} :
    decodeX cmd mk = .error e ↔
      (cmd.extractLsb' 9 3 ≠ 0 ∧ e = .mustBeZero) ∨
      (cmd.extractLsb' 9 3 = 0 ∧ (cmd.extractLsb' 0 9).toNat = 511 ∧ e = .nodeIndex511) := by
  rw [decodeX]
  split
  next hzero =>
    simp only [hzero, check_eq_error_iff, nodeFieldOk_eq_true_iff, nodeField, ne_eq, not_true_eq_false, not_not,
      true_and, false_and, false_or]
  next hzero =>
    simp only [hzero, Except.error.injEq, eq_comm (b := e), ne_eq, not_false_eq_true, true_and, false_and, or_false]

theorem extract_one_eq_zero_iff {cmd : CmdWord} {i : Nat} : cmd.extractLsb' i 1 = 0 ↔ cmd.getLsbD i = false := by
  rw [extract_eq_zero_iff, BitVec.getLsbD, Nat.testBit_eq_decide_div_mod_eq, pow_one, decide_eq_false_iff_not]
  omega

theorem decodeW_eq_error_iff {cmd : CmdWord} {mk : CharCode → WordSel → Instr} {e : DecodeError} :
    decodeW cmd mk = .error e ↔ cmd.getLsbD 11 = true ∧ e = .mustBeZero := by
  rw [decodeW, check_eq_error_iff, extract_one_eq_zero_iff, Bool.not_eq_false]

/-- The decoder refuses a word by a check exactly when the word fails that check: opcode by opcode, in the order of
`decode`, the format's own lemma says which check can fail. -/
theorem decode_eq_error_iff {cmd : CmdWord} {din : Word} {e : DecodeError} :
    decode cmd din = .error e ↔ FailsCheck cmd e := by
  unfold decode
  split
  case h_1 hop | h_2 hop | h_5 hop | h_6 hop | h_7 hop | h_8 hop | h_14 hop =>
    rw [decodeN_eq_error_iff]
    cases e <;> simp [FailsCheck, ← ofNat_eq_opField hop]
  case h_3 hop | h_4 hop | h_12 hop =>
    rw [decodeC_eq_error_iff]
    cases e <;> simp [FailsCheck, ← ofNat_eq_opField hop]
  case h_9 hop | h_10 hop | h_11 hop =>
    rw [decodeX_eq_error_iff]
    cases e <;> simp [FailsCheck, ← ofNat_eq_opField hop]
  case h_13 hop =>
    rw [decodeW_eq_error_iff]
    cases e <;> simp [FailsCheck, ← ofNat_eq_opField hop]
  case h_15 =>
    have hlt := (opField cmd).isLt
    have hreserved : (opField cmd).toNat = 0x0 ∨ (opField cmd).toNat = 0xF := by
      simp only [imp_false] at *
      omega
    rcases hreserved with hop | hop
    all_goals cases e <;> simp [FailsCheck, ← ofNat_eq_opField hop]

/-- A step answers ILLEGAL exactly for the words that spell no command: a command that a word spells is well formed, so
it answers SEQ or OK. -/
theorem step_answers_illegal_iff {s : State} {cmd : CmdWord} {din : Word} {es : List Event}
    (hp : s.pending = .command cmd din :: es) :
    (∃ t, step s = .next t ∧ t.responses = s.responses ++ [{ code := .illegal, dout := 0 }]) ↔
      ∃ e, decode cmd din = .error e := by
  constructor
  · rintro ⟨t, ht, hanswer⟩
    match hd : decode cmd din with
    | .error e => exact ⟨e, rfl⟩
    | .ok i =>
      obtain ⟨hwf, -⟩ := encodeGivesBackEveryLegalWord cmd din i hd
      rw [step_of_decode_ok hp hd] at ht
      rcases exec_next_cases ht with ⟨hill, -⟩ | ⟨-, -, rfl⟩ | ⟨-, -, b, -, rfl⟩
      · cases hwf.symm.trans hill
      · simp at hanswer
      · simp at hanswer
  · rintro ⟨e, he⟩
    exact ⟨_, step_of_decode_error hp he, rfl⟩

/-- Settles O23: the table of R201 is the union of the three checks; its row of Format X joins the must-be-zero bits and
index 511, which the decoder tests one after the other. -/
theorem illegalWordsAreThoseOfTheRule : Obligations.IllegalWordsAreThoseOfTheRule := by
  refine fun cmd din => ⟨fun s es hp => ?_, decode_eq_error_iff, decode_eq_error_iff⟩
  simp only [step_answers_illegal_iff hp, decode_eq_error_iff]
  constructor
  · rintro ⟨e, he⟩
    cases e
    case reservedOpcode => exact .inl he
    case mustBeZero =>
      rcases he with hn | hc | ⟨hop, hx⟩ | hw
      · exact .inr (.inl hn)
      · exact .inr (.inr (.inl hc))
      · exact .inr (.inr (.inr (.inl ⟨hop, .inl hx⟩)))
      · exact .inr (.inr (.inr (.inr hw)))
    case nodeIndex511 =>
      obtain ⟨hop, -, hindex⟩ := he
      exact .inr (.inr (.inr (.inl ⟨hop, .inr hindex⟩)))
  · rintro (hop | hn | hc | ⟨hop, hx⟩ | hw)
    · exact ⟨.reservedOpcode, hop⟩
    · exact ⟨.mustBeZero, .inl hn⟩
    · exact ⟨.mustBeZero, .inr (.inl hc)⟩
    · by_cases hzero : cmd.extractLsb' 9 3 = 0
      · exact ⟨.nodeIndex511, hop, hzero, hx.resolve_left (not_not_intro hzero)⟩
      · exact ⟨.mustBeZero, .inr (.inr (.inl ⟨hop, hzero⟩))⟩
    · exact ⟨.mustBeZero, .inr (.inr (.inr hw))⟩

end Sys2Proof.Machine

/-! PROOFS. The reset event (70_reset_and_hazards.md R230, R232). -/

namespace Sys2Proof.Machine

/-- Settles O2: the step takes the event off `pending` and applies reset, which writes the block alone and ignores what it
held. -/
theorem resetEventMapsAnyBlockToTheResetBlock : Obligations.ResetEventMapsAnyBlockToTheResetBlock := by
  intro s es hp
  rw [step_of_reset hp, applyReset, resetBlock_eq, state_reset_block]

end Sys2Proof.Machine
